-- ==== Sys2Proof/Word.lean ====
section
/-! DEFINITION. The bit-vector types every other file uses (00_scope.md rule R9: every stored
value is an unsigned bit vector of stated width, bit 0 least significant). -/

namespace Sys2Proof

/-- 32 bits: a sprite word (R21), a command word (R70), the result register (R30). -/
abbrev Word := BitVec 32

/-- 8 bits: an attribute group (R23), a frame-buffer byte (R26), the field `VAL` (R71). -/
abbrev Byte := BitVec 8

/-- A 2-bit colour code (R24): 0 off, 1 red, 2 green, 3 blue. -/
abbrev Colour := BitVec 2

/-- A clock reading or timestamp of `CLOCK_W` bits (R29, R83); 32 is the default of R6. -/
abbrev Clock (clockW : Nat := 32) := BitVec clockW

end Sys2Proof
end

