-- ==== Sys2Proof/Config.lean ====
section
/-! DEFINITION. What is fixed for one instance of the block: the constants of 00_scope.md rule R5,
the record of the open parameters of rule R6, and the values the spec leaves free. The spec's
default for each parameter stands in Machine/Defaults.lean. -/

namespace Sys2Proof

/-- `N_SPRITES` (R5). -/
abbrev nSprites : Nat := 25
/-- `DIM` (R5): legal coordinates are 0 to `DIM` - 1. -/
abbrev dim : Nat := 6
/-- `FB_BYTES` (R5). -/
abbrev fbBytes : Nat := 54
/-- `N_LAYERS` (R5). -/
abbrev nLayers : Nat := 6
/-- `CELLS_PER_LAYER` (R5). -/
abbrev cellsPerLayer : Nat := 36
/-- `N_CLASSES` (R5). -/
abbrev nClasses : Nat := 7

/-- The twelve attributes, in the order of their name codes (R78, R22). -/
inductive Attr where
  | colour | x | y | visible | direction | z | move | wrap | attack | defend | state | speed
  deriving DecidableEq, Repr

/-- A sprite's three axes (R22, R172). -/
inductive Axis where
  | x | y | z
  deriving DecidableEq, Repr

/-- A per-axis direction delta (R170): -1, 0 or +1. -/
inductive Delta where
  | neg | zero | pos
  deriving DecidableEq, Repr

/-- One row of `DIRTAB` (R170). -/
structure Deltas where
  dx : Delta
  dy : Delta
  dz : Delta
  deriving DecidableEq, Repr

/-- One row of `ATTR` (R100): "a fixed (group-index, bit-mask, shift) triple". -/
structure AttrDesc where
  group : Fin 4
  mask : Byte
  shift : Nat
  deriving DecidableEq, Repr

/-- `AXIS_MAP` (R6, R104): which sprite axis gives a cell's layer, row and column. -/
structure AxisMap where
  layer : Axis
  row : Axis
  column : Axis
  deriving DecidableEq, Repr

/-- The parameters the spec leaves open (R6), one record, fixed before the first command and never
changed (R212 (c)). -/
structure Config where
  /-- `VAL_W` (R6, R102): the width of the set operand. -/
  valW : Nat
  /-- `CLOCK_W` (R6, R29): the width of the clock reading and of each timestamp. -/
  clockW : Nat
  /-- `ATTR` (R100). -/
  attr : Attr → AttrDesc
  /-- `DEFEND_PARITY` (R108). -/
  defendParity : Bool
  /-- `AXIS_MAP` (R104). -/
  axisMap : AxisMap
  /-- `DIRTAB` (R170), total on the codes 0 to 15. -/
  dirTab : BitVec 4 → Deltas
  /-- `PERIOD` (R173): each less than 2^`CLOCK_W`. -/
  period : Fin 7 → Clock clockW
  /-- `NPULSE` (R6, R152): the data bits shifted for one cell in one phase. -/
  nPulse : Nat
  /-- `PAT[phase][code]` (R152), first bit first; every pattern has `NPULSE` bits (R152 (e)). -/
  pat : BitVec 1 → Colour → Vector Bool nPulse

/-- The value a GET of an unrecognized attribute name leaves in `RES` (R109): unspecified, 32 bits,
a fresh one for each value of the state's draw counter. -/
opaque Config.freeRes : Nat → Word

/-- The uninitialized local of the AN_DEFEND setter in parity mode (R108): unspecified, 8 bits,
a fresh one for each value of the state's draw counter. -/
opaque Config.freeGroup : Nat → Byte

end Sys2Proof
end

