-- ==== Sys2Proof/Machine/Defaults.lean ====
section
/-! DEFINITION. The spec's default for every parameter of 00_scope.md rule R6: the configuration
`exec` and `step` run with. -/

namespace Sys2Proof.Machine

/-- The default `ATTR` (R100). -/
def defaultAttr : Attr → AttrDesc
  | .colour => ⟨0, 0x03, 0⟩
  | .x => ⟨0, 0x1C, 2⟩
  | .y => ⟨0, 0xE0, 5⟩
  | .visible => ⟨1, 0x01, 0⟩
  | .direction => ⟨1, 0x1E, 1⟩
  | .z => ⟨1, 0xE0, 5⟩
  | .move => ⟨2, 0x01, 0⟩
  | .wrap => ⟨2, 0x02, 1⟩
  | .attack => ⟨2, 0x1C, 2⟩
  | .defend => ⟨2, 0xE0, 5⟩
  | .state => ⟨3, 0x01, 0⟩
  | .speed => ⟨3, 0x0E, 1⟩

/-- The rows of the default `DIRTAB` (R170), by direction code. -/
def defaultDirRows : Vector Deltas 16 := #v[
  ⟨.pos, .zero, .zero⟩,   -- 0 RIGHT
  ⟨.neg, .zero, .zero⟩,   -- 1 LEFT
  ⟨.zero, .pos, .zero⟩,   -- 2 BACK
  ⟨.zero, .neg, .zero⟩,   -- 3 FRONT
  ⟨.zero, .zero, .pos⟩,   -- 4 UP
  ⟨.zero, .zero, .neg⟩,   -- 5 DOWN
  ⟨.neg, .pos, .pos⟩,     -- 6 BACK_UP_LEFT
  ⟨.pos, .pos, .pos⟩,     -- 7 BACK_UP_RIGHT
  ⟨.neg, .pos, .neg⟩,     -- 8 BACK_DOWN_LEFT
  ⟨.pos, .pos, .neg⟩,     -- 9 BACK_DOWN_RIGHT
  ⟨.neg, .neg, .pos⟩,     -- 10 FRONT_UP_LEFT
  ⟨.pos, .neg, .pos⟩,     -- 11 FRONT_UP_RIGHT
  ⟨.neg, .neg, .neg⟩,     -- 12 FRONT_DOWN_LEFT
  ⟨.pos, .neg, .neg⟩,     -- 13 FRONT_DOWN_RIGHT
  ⟨.zero, .zero, .zero⟩,  -- 14 reserved
  ⟨.zero, .zero, .zero⟩]  -- 15 reserved

/-- The default `DIRTAB` (R170). -/
def defaultDirTab (d : BitVec 4) : Deltas := defaultDirRows.get d.toFin

/-- The default `PERIOD` (R6). -/
def defaultPeriod (c : Fin 7) : Clock := (#v[0, 25, 50, 100, 200, 400, 800] : Vector Clock 7).get c

/-- The default `PAT` (R153): the cell's own code, more significant bit first, with the codes the
phase must not light replaced by off. -/
def defaultPat (phase : BitVec 1) (code : Colour) : Vector Bool 2 :=
  if phase = 0 then
    if code = 2 then #v[true, false] else if code = 3 then #v[true, true] else #v[false, false]
  else if code = 1 then #v[false, true] else #v[false, false]

/-- The configuration of the modelled instance: every parameter at the spec's default (R6).
DESIGN CHOICE, log 1. -/
abbrev defaultConfig : Config where
  valW := 8
  clockW := 32
  attr := defaultAttr
  defendParity := false
  axisMap := { layer := .z, row := .y, column := .x }
  dirTab := defaultDirTab
  period := defaultPeriod
  nPulse := 2
  pat := defaultPat

end Sys2Proof.Machine
end

