-- ==== Sys2Proof/Machine/State.lean ====
section
/-! DEFINITION. The state of the block (10_state.md rules R20 to R37), the command port's inputs
and outputs as the model's own fields, the reasons a step can stop, and the state after reset. -/

namespace Sys2Proof.Machine

/-- The frame buffer (R26): (byte index, byte) pairs in one canonical form, indices strictly rising
and no byte equal to what an unlisted index reads as (see `Memory.wf` in Machine/Ops.lean). -/
abbrev Memory := List Host.Cell

/-- A wire event (R154): a line and the level it is set to. -/
inductive WireEvent where
  | data (b : Bool)
  | clock (b : Bool)
  | latch (b : Bool)
  | layerEn (v : BitVec 6)
  deriving DecidableEq, Repr

/-- What stands on the three input ports when one command is presented (R32): each is sampled once,
at that command. -/
structure Request (clockW : Nat := 32) where
  /-- The command word. -/
  cmd : Word
  /-- The clock reading (R83). -/
  now : Clock clockW
  /-- The draws of the random source (R82). -/
  rnd : BitVec 15
  deriving DecidableEq, Repr

/-- The state of an instance whose clock has `clockW` bits (R20); `State` alone is that of the default
`CLOCK_W` = 32 (R6). -/
structure State (clockW : Nat := 32) where
  /-- `SPR[0..24]` (R21). -/
  spr : Vector Word 25
  /-- `FB[0..53]` (R26). -/
  fb : Memory
  /-- `layerCounter` (R27): legal values 0 to 5. -/
  layerCounter : BitVec 3
  /-- `mplexCounter` (R28): 0 the green/blue pass, 1 the red pass. -/
  mplexCounter : BitVec 1
  /-- `LAST[0..6]` (R29). -/
  last : Vector (Clock clockW) 7
  /-- `RES` (R30). -/
  res : Word
  /-- The level of `DATA` (R31). -/
  data : Bool
  /-- The level of `CLOCK` (R31). -/
  clock : Bool
  /-- The level of `LATCH` (R31). -/
  latch : Bool
  /-- `LAYER_EN[5:0]` (R31). -/
  layerEn : BitVec 6
  /-- MODEL'S OWN: the commands the caller has yet to present, each with the port readings it will
  be presented with, the next one first (R7, R8). DESIGN CHOICE, log 2. -/
  inbox : List (Request clockW)
  /-- MODEL'S OWN: the reading of the `NOW` port sampled by the current command (R83).
  DESIGN CHOICE, log 3. -/
  now : Clock clockW
  /-- MODEL'S OWN: the reading of the `RND` port sampled by the current command (R82).
  DESIGN CHOICE, log 3. -/
  rnd : BitVec 15
  /-- MODEL'S OWN: the wire events the current command has returned, in order (R154). DESIGN CHOICE,
  log 4. -/
  events : List WireEvent
  /-- MODEL'S OWN: how many unspecified values have been drawn (R10 `draw`). DESIGN CHOICE,
  log 7. -/
  draws : Nat
  deriving DecidableEq, Repr

/-- Why a step can fault. The block itself raises nothing and never halts (R11, R190). -/
inductive Fault where
  /-- Raised by REFRESH where `layerCounter` holds 6 or 7, which no run from reset reaches (R27): the
  cells and bytes of such a layer do not exist (R50, R55). DESIGN CHOICE, log 6. SAFE: the model
  stops where the spec gives no effect. -/
  | layerOutOfRange
  deriving DecidableEq, Repr

/-- Why a step can be refused: the spec gives the command no next state (R11). -/
inductive Refusal where
  /-- An instruction with no meaning in this model yet, by its mnemonic; raised by no arm. SAFE. -/
  | notModelled (mnemonic : String)
  /-- Raised by GET, SET, RNDCOL, RNDPOS, RNDDIR and MOVE with `ID` above 24 (R110): undefined
  behaviour. SAFE. -/
  | idOutOfRange
  /-- Raised by SET with a valid `ID` and `AN` above 11 (R109): an unspecified effect. SAFE. -/
  | unknownAttributeSet
  deriving DecidableEq, Repr

/-- The outcome of one command (R11). -/
abbrev Result (clockW : Nat := 32) := Host.Outcome (State clockW) Fault Refusal

/-- The state after reset of an instance whose clock has `clockW` bits (R37, R197, R210): everything
zero, every cell off, no layer energized. The model's own fields are empty or zero (DESIGN CHOICE,
log 5): no command waits, nothing has been sampled, returned or drawn. -/
def State.resetAt (clockW : Nat) : State clockW where
  spr := Vector.replicate 25 0
  fb := []
  layerCounter := 0
  mplexCounter := 0
  last := Vector.replicate 7 0
  res := 0
  data := false
  clock := false
  latch := false
  layerEn := 0
  inbox := []
  now := 0
  rnd := 0
  events := []
  draws := 0

/-- The state after reset at the default `CLOCK_W` (R6, R37). -/
def State.reset : State := State.resetAt 32

end Sys2Proof.Machine
end

