-- ==== Sys2Proof/Machine/Ops.lean ====
section
/-! DEFINITION. The named operations over memory, registers, output lines and the free values that
the meanings share (20_memory.md, 42_framebuffer.md, 43_multiplexer.md rule R154).

TAKING AN EXCEPTION: there is none to write. 60_exceptions.md rules R190, R194 and R195: the block
raises no exception, saves no state, has no vector and no return. -/

namespace Sys2Proof.Machine

variable {W : Nat}

/-! ## Frame-buffer bytes (R26, R50, R58) -/

/-- What an unlisted byte reads as: its reset value (R37). An index outside `FB[0..53]` reads as it too;
no command addresses one (DESIGN CHOICE, log 10). -/
abbrev Memory.unlisted : Byte := 0

/-- `MemRead(addr, 1)` (R10): the byte at an index. -/
def Memory.byteAt : Memory → Nat → Byte
  | [], _ => Memory.unlisted
  | (a, b) :: m, k => if k = a then b else Memory.byteAt m k

/-- `MemWrite(addr, 1, v)` (R10), keeping the canonical form. -/
def Memory.write : Memory → Nat → Byte → Memory
  | [], k, v => if v = Memory.unlisted then [] else [(k, v)]
  | (a, b) :: m, k, v =>
    if k < a then
      if v = Memory.unlisted then (a, b) :: m else (k, v) :: (a, b) :: m
    else if k = a then
      if v = Memory.unlisted then m else (a, v) :: m
    else (a, b) :: Memory.write m k v

/-- The canonical form from index `lo` on: strictly rising, inside `FB[0..53]`, no entry equal to
what an unlisted index reads as. -/
def Memory.wfFrom : Nat → Memory → Bool
  | _, [] => true
  | lo, (a, b) :: m =>
    decide (lo ≤ a) && decide (a < fbBytes) && decide (b ≠ Memory.unlisted) &&
      Memory.wfFrom (a + 1) m

/-- The canonical form of a frame buffer. -/
def Memory.wf (m : Memory) : Bool := Memory.wfFrom 0 m

/-! ## Cells (R51 to R56) -/

/-- `pos(L, R, C)` (R51): the bit position of a cell in the buffer. -/
def cellPos (layer row col : Nat) : Nat := 72 * layer + 12 * row + 2 * col

/-- `byte(L, R, C)` (R51). -/
def cellByte (layer row col : Nat) : Nat := cellPos layer row col / 8

/-- `off(L, R, C)` (R51): counted from bit 0 of the byte (R52). -/
def cellOff (row col : Nat) : Nat := (12 * row + 2 * col) % 8

/-- `cell(L, R, C)` (R55). -/
def Memory.cell (m : Memory) (layer row col : Nat) : Colour :=
  (m.byteAt (cellByte layer row col) >>> cellOff row col).setWidth 2

/-- A byte with the two bits at offset `o` replaced by the code `c` (R56). -/
def putCode (old : Byte) (o : Nat) (c : Colour) : Byte :=
  (old &&& ~~~(0b11#8 <<< o)) ||| (c.setWidth 8 <<< o)

/-- `writecell(L, R, C, c)` (R56): a read-modify-write of one byte. -/
def Memory.writeCell (m : Memory) (layer row col : Nat) (c : Colour) : Memory :=
  m.write (cellByte layer row col)
    (putCode (m.byteAt (cellByte layer row col)) (cellOff row col) c)

/-! ## Updates of one field -/

def State.setFb (s : State W) (m : Memory) : State W := { s with fb := m }

/-- `RES <- v` (R10, R30). -/
def State.setRes (s : State W) (v : Word) : State W := { s with res := v }

/-- `SPR[i]` (R10, R21). -/
def State.sprite (s : State W) (i : Fin 25) : Word := s.spr.get i

/-- `SPR[i] <- w` (R10, R21). -/
def State.setSprite (s : State W) (i : Fin 25) (w : Word) : State W :=
  { s with spr := s.spr.set i.val w i.isLt }

/-- `LAST[c]` (R29). -/
def State.lastOf (s : State W) (c : Fin 7) : Clock W := s.last.get c

/-- `LAST[c] <- now` for exactly the classes that `el` names (R175). -/
def State.stampLast (s : State W) (el : Fin 7 → Bool) (now : Clock W) : State W :=
  { s with last := Vector.ofFn fun c => if el c then now else s.last.get c }

def State.setCounters (s : State W) (layer : BitVec 3) (phase : BitVec 1) : State W :=
  { s with layerCounter := layer, mplexCounter := phase }

/-- One more unspecified value has been drawn (R10 `draw`). -/
def State.bumpDraws (s : State W) : State W := { s with draws := s.draws + 1 }

/-! ## The cell-set operation (R141) -/

/-- `setcell(L, R, C, c)` (R141): a coordinate above 5 drops the whole write. It is the one path by
which any command writes the frame buffer (R144). -/
def State.setCell (s : State W) (layer row col : Nat) (c : Colour) : State W :=
  if layer > 5 ∨ row > 5 ∨ col > 5 then s else s.setFb (s.fb.writeCell layer row col c)

/-! ## Wire events (R154) -/

/-- A line takes the level of an event. -/
def State.drive (s : State W) : WireEvent → State W
  | .data b => { s with data := b }
  | .clock b => { s with clock := b }
  | .latch b => { s with latch := b }
  | .layerEn v => { s with layerEn := v }

/-- An event joins the list the current command returns. -/
def State.record (s : State W) (e : WireEvent) : State W := { s with events := s.events ++ [e] }

/-- `emit e` (R10, R154): sets the line's level and appends the event, whether or not the level
changes. -/
def State.emit (s : State W) (e : WireEvent) : State W := (s.drive e).record e

/-- `emit` of each event of a list, in order. -/
def State.emitAll (s : State W) (es : List WireEvent) : State W := es.foldl State.emit s

/-! ## The command port (R7, R32) -/

/-- A command is presented: its `NOW` and `RND` readings are sampled, and the list of events it
returns starts empty. -/
def State.present (s : State W) (r : Request W) (rest : List (Request W)) : State W :=
  { s with inbox := rest, now := r.now, rnd := r.rnd, events := [] }

end Sys2Proof.Machine
end

