-- ==== Sys2Proof/Machine/Operands.lean ====
section
/-! DEFINITION. Every operand form: sprite ids (R79, R110), attribute name codes (R78), the field
read and write functions of the codec (R101, R102), a sprite's fields, and the draws on the `RND`
port (R82). -/

namespace Sys2Proof.Machine

variable {W : Nat}

/-! ## Operand codes -/

/-- The attribute a name code stands for (R78); codes above 11 are unrecognized (R109). -/
def attrOfCode : Nat → Option Attr
  | 0 => some .colour
  | 1 => some .x
  | 2 => some .y
  | 3 => some .visible
  | 4 => some .direction
  | 5 => some .z
  | 6 => some .move
  | 7 => some .wrap
  | 8 => some .attack
  | 9 => some .defend
  | 10 => some .state
  | 11 => some .speed
  | _ => none

/-- The name code of an attribute (R78). -/
def attrCode : Attr → Nat
  | .colour => 0
  | .x => 1
  | .y => 2
  | .visible => 3
  | .direction => 4
  | .z => 5
  | .move => 6
  | .wrap => 7
  | .attack => 8
  | .defend => 9
  | .state => 10
  | .speed => 11

/-- Whether a write of the attribute synchronises the frame buffer (R100, R104). -/
def isSync : Attr → Bool
  | .colour | .x | .y | .visible | .z | .state => true
  | .direction | .move | .wrap | .attack | .defend | .speed => false

/-- The id check every format S command makes first (R110, R193): ids 25 to 31 are refused. -/
def withSprite (id : Nat) (k : Fin 25 → Result W) : Result W :=
  if h : id < 25 then k ⟨id, h⟩ else .refused .idOutOfRange

/-! ## The codec's read and write (R23, R101, R102) -/

/-- `grp(w, g)` (R23): bits `[8g+7:8g]`. -/
def grp (w : Word) (g : Fin 4) : Byte := w.extractLsb' (8 * g.val) 8

/-- `w` with bits `[8g+7:8g]` replaced by `b` and the other 24 unchanged (R23). -/
def setGrp (w : Word) (g : Fin 4) (b : Byte) : Word :=
  (w &&& ~~~(0xFF#32 <<< (8 * g.val))) ||| (b.setWidth 32 <<< (8 * g.val))

/-- `field(w, an)` (R101). -/
def field (cfg : Config) (w : Word) (a : Attr) : Byte :=
  (grp w (cfg.attr a).group &&& (cfg.attr a).mask) >>> (cfg.attr a).shift

/-- A value as the set operand of `VAL_W` bits (R6, R102). The `VAL` field has 8 bits (R71): it is
zero-extended to a wider operand (R75), and a narrower one keeps its low bits (DESIGN CHOICE,
log 15). -/
def setOperand (cfg : Config) (v : Byte) : BitVec cfg.valW := v.setWidth cfg.valW

/-- The group byte a setter writes back (R102): `(old & ~m) | trunc_8(v << s)`. The value is not
masked (R107). -/
def mergeGroup {n : Nat} (d : AttrDesc) (old : Byte) (v : BitVec n) : Byte :=
  (old &&& ~~~d.mask) ||| (v.setWidth 8 <<< d.shift)

/-- `put(w, an, v)` (R102). -/
def put (cfg : Config) (w : Word) (a : Attr) (v : Byte) : Word :=
  setGrp w (cfg.attr a).group
    (mergeGroup (cfg.attr a) (grp w (cfg.attr a).group) (setOperand cfg v))

/-! ## A sprite's fields (R101)

At a layout other than the default one a field wider than R22 gives it is cut to that width
(DESIGN CHOICE, log 16). -/

def Axis.attr : Axis → Attr
  | .x => .x
  | .y => .y
  | .z => .z

/-- `colour(w)`. -/
def colourOf (cfg : Config) (w : Word) : Colour := (field cfg w .colour).setWidth 2

/-- `xc(w)`, `yc(w)`, `zc(w)`. -/
def coordOf (cfg : Config) (w : Word) (ax : Axis) : Nat := (field cfg w (Axis.attr ax)).toNat

/-- `dir(w)`. -/
def dirOf (cfg : Config) (w : Word) : BitVec 4 := (field cfg w .direction).setWidth 4

/-- `speed(w)`. -/
def speedOf (cfg : Config) (w : Word) : Nat := (field cfg w .speed).toNat

/-! ## The draws on the `RND` port (R82), zero-extended to the set operand's width -/

/-- `RND_C = RND[1:0]`. -/
def rndC (s : State W) : Byte := (s.rnd.extractLsb' 0 2).setWidth 8
/-- `RND_X = RND[4:2]`. -/
def rndX (s : State W) : Byte := (s.rnd.extractLsb' 2 3).setWidth 8
/-- `RND_Y = RND[7:5]`. -/
def rndY (s : State W) : Byte := (s.rnd.extractLsb' 5 3).setWidth 8
/-- `RND_Z = RND[10:8]`. -/
def rndZ (s : State W) : Byte := (s.rnd.extractLsb' 8 3).setWidth 8
/-- `RND_D = RND[14:11]`. -/
def rndD (s : State W) : Byte := (s.rnd.extractLsb' 11 4).setWidth 8

end Sys2Proof.Machine
end

