-- ==== Sys2Proof/Machine/Flags.lean ====
section
/-! DEFINITION. The one-bit conditions. The block has no flags and no condition codes (R34): what
stands here are the tests the meanings make on a sprite's one-bit fields and on a speed class, none
of which is stored (R35). -/

namespace Sys2Proof.Machine

variable {W : Nat}

/-- `vis(w) == 1` (R103). -/
def visible (cfg : Config) (w : Word) : Bool := field cfg w .visible == 1

/-- `live(w) == 1` (R103). -/
def live (cfg : Config) (w : Word) : Bool := field cfg w .state == 1

/-- `mov(w) == 1` (R174). -/
def moves (cfg : Config) (w : Word) : Bool := field cfg w .move == 1

/-- `wrap(w) == 1` (R171). -/
def wraps (cfg : Config) (w : Word) : Bool := field cfg w .wrap == 1

/-- `lit(w)` (R103): the code the sprite shows in its cell. -/
def lit (cfg : Config) (w : Word) : Colour :=
  if visible cfg w && live cfg w then colourOf cfg w else 0

/-- `elapsed(c)` (R173): unsigned subtraction at `CLOCK_W` bits. -/
def elapsed (s : State W) (now : Clock W) (c : Fin 7) : Clock W := now - s.lastOf c

/-- `eligible(c)` (R173): strictly greater, unsigned. -/
def eligible (period : Fin 7 → Clock W) (s : State W) (now : Clock W) (c : Fin 7) : Bool :=
  decide (period c < elapsed s now c)

end Sys2Proof.Machine
end

