-- ==== Sys2Proof/Machine/AttributeCodec.lean ====
section
/-! DEFINITION. GET and SET with the frame-buffer synchronisation (40_attribute_codec.md). Each
meaning is written once for every configuration (…In) and run by `exec` at the default one. -/

namespace Sys2Proof.Machine

variable {W : Nat}

/-! ## Frame-buffer synchronisation (R103, R104) -/

/-- The cell-set operation at the coordinates a sprite word holds, through `AXIS_MAP` (R104). -/
def setCellOf (cfg : Config) (w : Word) (c : Colour) (s : State W) : State W :=
  s.setCell (coordOf cfg w cfg.axisMap.layer) (coordOf cfg w cfg.axisMap.row)
    (coordOf cfg w cfg.axisMap.column) c

/-- A write of one field with no synchronisation (R102, R106). -/
def plainWrite (cfg : Config) (i : Fin 25) (a : Attr) (v : Byte) (s : State W) : State W :=
  s.setSprite i (put cfg (s.sprite i) a v)

/-- `syncwrite(i, an, v)` (R104): clear the cell at the current coordinates, overwrite the field,
light the cell at the new coordinates. -/
def syncWrite (cfg : Config) (i : Fin 25) (a : Attr) (v : Byte) (s : State W) : State W :=
  let s₁ := setCellOf cfg (s.sprite i) 0 s
  let s₂ := plainWrite cfg i a v s₁
  setCellOf cfg (s₂.sprite i) (lit cfg (s₂.sprite i)) s₂

/-- One attribute write (R104): the attribute's name alone decides whether it synchronises. -/
def writeAttr (cfg : Config) (i : Fin 25) (a : Attr) (v : Byte) (s : State W) : State W :=
  if isSync a then syncWrite cfg i a v s else plainWrite cfg i a v s

/-- The AN_DEFEND setter in parity mode (R108): the group is computed from a fresh unspecified byte
instead of the stored one. R108 gives the default layout's numbers; here they come from `ATTR`
(DEDUCED, log 8). -/
def parityDefendWrite (cfg : Config) (i : Fin 25) (v : Byte) (s : State W) : State W :=
  (s.setSprite i (setGrp (s.sprite i) (cfg.attr .defend).group
    (mergeGroup (cfg.attr .defend) (Config.freeGroup s.draws) (setOperand cfg v)))).bumpDraws

/-! ## GET and SET -/

/-- GET (R105, R109). -/
def getIn (cfg : Config) (id an : Nat) (s : State W) : Result W :=
  withSprite id fun i =>
    match attrOfCode an with
    | none => .next (s.setRes (Config.freeRes s.draws)).bumpDraws
    | some a => .next (s.setRes ((field cfg (s.sprite i) a).setWidth 32))

/-- SET (R106, R108, R109): the id is tested before the name (R193). -/
def setIn (cfg : Config) (id an : Nat) (val : Byte) (s : State W) : Result W :=
  withSprite id fun i =>
    match attrOfCode an with
    | none => .refused .unknownAttributeSet
    | some a =>
      if a = .defend ∧ cfg.defendParity = true then .next (parityDefendWrite cfg i val s)
      else .next (writeAttr cfg i a val s)

def execGet (id an : Nat) (s : State) : Result := getIn defaultConfig id an s

def execSet (id an : Nat) (val : Byte) (s : State) : Result := setIn defaultConfig id an val s

end Sys2Proof.Machine
end

