-- ==== Sys2Proof/Machine/FrameBuffer.lean ====
section
/-! DEFINITION. SETCELL (42_framebuffer.md). -/

namespace Sys2Proof.Machine

variable {W : Nat}

/-- SETCELL (R140): the cell-set operation of R141 on the operands; no parameter of R6 bears on it. -/
def setcellIn (layer row col : Nat) (colour : Colour) (s : State W) : Result W :=
  .next (s.setCell layer row col colour)

def execSetcell (layer row col : Nat) (colour : Colour) (s : State) : Result :=
  setcellIn layer row col colour s

end Sys2Proof.Machine
end

