-- ==== Sys2Proof/Machine/Movement.lean ====
section
/-! DEFINITION. MOVE and TICK (44_movement.md). -/

namespace Sys2Proof.Machine

variable {W : Nat}

/-- A delta as the integer it stands for (R9, R170). -/
def Delta.toInt : Delta → Int
  | .neg => -1
  | .zero => 0
  | .pos => 1

/-- `axisstep(v, d, wr)` (R171): `v + d` is a mathematical integer; none means the axis is not
written. -/
def axisStep (v : Nat) (d : Delta) (wr : Bool) : Option Nat :=
  let n : Int := v + Delta.toInt d
  if d = .zero then none
  else if 0 ≤ n ∧ n ≤ 5 then some n.toNat
  else if d = .pos ∧ n > 5 ∧ wr = true then some 0
  else if d = .neg ∧ (n < 0 ∨ n > 5) ∧ wr = true then some 5
  else none

/-- One axis of a step (R172): an applied axis is one sync write, any other axis none. -/
def moveAxis (cfg : Config) (i : Fin 25) (ax : Axis) (d : Delta) (wr : Bool) (s : State W) : State W :=
  match axisStep (coordOf cfg (s.sprite i) ax) d wr with
  | some n => syncWrite cfg i (Axis.attr ax) (BitVec.ofNat 8 n) s
  | none => s

/-- `step(i)` (R172): direction and wrap flag read once, then the axes in the order x, y, z. -/
def moveStep (cfg : Config) (i : Fin 25) (s : State W) : State W :=
  let ds := cfg.dirTab (dirOf cfg (s.sprite i))
  let wr := wraps cfg (s.sprite i)
  moveAxis cfg i .z ds.dz wr (moveAxis cfg i .y ds.dy wr (moveAxis cfg i .x ds.dx wr s))

/-- MOVE (R172). -/
def moveIn (cfg : Config) (id : Nat) (s : State W) : Result W :=
  withSprite id fun i => .next (moveStep cfg i s)

/-- Whether TICK moves a sprite that holds the word `w` (R174), given which classes are eligible:
the movement flag and the class alone decide, and code 7 is no class (R176). -/
def tickMoves (cfg : Config) (el : Fin 7 → Bool) (w : Word) : Bool :=
  moves cfg w && (if h : speedOf cfg w < 7 then el ⟨speedOf cfg w, h⟩ else false)

/-- TICK's work on one sprite (R174). -/
def tickSprite (cfg : Config) (el : Fin 7 → Bool) (s : State W) (i : Fin 25) : State W :=
  if tickMoves cfg el (s.sprite i) then moveStep cfg i s else s

/-- TICK's sprite loop (R174): ascending id, each step on the state the steps before it left. -/
def tickSprites (cfg : Config) (el : Fin 7 → Bool) (s : State W) : State W :=
  (List.finRange 25).foldl (tickSprite cfg el) s

/-- TICK (R174): all seven eligibilities from the state at entry, the sprite loop, then the
timestamps (R175). -/
def tickIn (cfg : Config) (period : Fin 7 → Clock W) (s : State W) : Result W :=
  .next ((tickSprites cfg (eligible period s s.now) s).stampLast (eligible period s s.now) s.now)

def execMove (id : Nat) (s : State) : Result := moveIn defaultConfig id s

def execTick (s : State) : Result := tickIn defaultConfig defaultPeriod s

end Sys2Proof.Machine
end

