-- ==== Sys2Proof/Machine/Multiplexer.lean ====
section
/-! DEFINITION. REFRESH and the wire protocol (43_multiplexer.md). -/

namespace Sys2Proof.Machine

variable {W : Nat}

/-- `shiftbit(b)` (R155). -/
def shiftBit (b : Bool) : List WireEvent := [.data b, .clock true, .clock false]

/-- `latch()` (R155). -/
def latchEvents : List WireEvent := [.latch true, .latch false]

/-- `blank()` (R156). -/
def blankEvents : List WireEvent := [.layerEn 0]

/-- `energize(L)` (R156): one-hot, bit `L` set. -/
def energizeEvents (layer : Nat) : List WireEvent := [.layerEn (1#6 <<< layer)]

/-- The data bits of one step, `bits(L, P)` (R159): cells 35 down to 0 (R151), each in its phase's
pattern, first bit first (R152). -/
def layerBits (cfg : Config) (fb : Memory) (layer : Nat) (phase : BitVec 1) : List Bool :=
  (List.range cellsPerLayer).reverse.flatMap fun k =>
    (cfg.pat phase (fb.cell layer (k / 6) (k % 6))).toList

/-- The wire events of one step, in order (R158). -/
def refreshEvents (cfg : Config) (fb : Memory) (layer : Nat) (phase : BitVec 1) :
    List WireEvent :=
  blankEvents ++ (layerBits cfg fb layer phase).flatMap shiftBit ++ latchEvents ++
    energizeEvents layer

/-- The layer of `next(L, P)` (R157). -/
def nextLayer (layer : BitVec 3) (phase : BitVec 1) : BitVec 3 :=
  if phase = 0 then layer else BitVec.ofNat 3 ((layer.toNat + 1) % 6)

/-- The phase of `next(L, P)` (R157). -/
def nextPhase (phase : BitVec 1) : BitVec 1 := if phase = 0 then 1 else 0

/-- REFRESH (R158). A `layerCounter` of 6 or 7 names no layer (R27, R55). -/
def refreshIn (cfg : Config) (s : State W) : Result W :=
  if s.layerCounter.toNat < nLayers then
    .next ((s.emitAll (refreshEvents cfg s.fb s.layerCounter.toNat s.mplexCounter)).setCounters
      (nextLayer s.layerCounter s.mplexCounter) (nextPhase s.mplexCounter))
  else .fault .layerOutOfRange

def execRefresh (s : State) : Result := refreshIn defaultConfig s

end Sys2Proof.Machine
end

