-- ==== Sys2Proof/Machine/SpriteStore.lean ====
section
/-! DEFINITION. The random helpers RNDCOL, RNDPOS and RNDDIR (41_sprite_store.md). The draws are
inputs on the `RND` port, taken as they are: no range check and no reduction (R133). -/

namespace Sys2Proof.Machine

variable {W : Nat}

/-- RNDCOL (R130). -/
def rndcolIn (cfg : Config) (id : Nat) (s : State W) : Result W :=
  withSprite id fun i => .next (syncWrite cfg i .colour (rndC s) s)

/-- RNDPOS (R131): x, then y, then z, one atomic command. -/
def rndposIn (cfg : Config) (id : Nat) (s : State W) : Result W :=
  withSprite id fun i =>
    .next (syncWrite cfg i .z (rndZ s)
      (syncWrite cfg i .y (rndY s) (syncWrite cfg i .x (rndX s) s)))

/-- RNDDIR (R132): direction is not a sync attribute. -/
def rnddirIn (cfg : Config) (id : Nat) (s : State W) : Result W :=
  withSprite id fun i => .next (plainWrite cfg i .direction (rndD s) s)

def execRndcol (id : Nat) (s : State) : Result := rndcolIn defaultConfig id s

def execRndpos (id : Nat) (s : State) : Result := rndposIn defaultConfig id s

def execRnddir (id : Nat) (s : State) : Result := rnddirIn defaultConfig id s

end Sys2Proof.Machine
end

