-- ==== Sys2Proof/Syntax.lean ====
section
/-! DEFINITION. The nine commands (30_encoding.md rule R74), one constructor per row of
spec/opcode_table.json. Sprite ids, attribute codes and coordinates are the unsigned integers of
their fields (R75); `VAL` and `COLOUR` are bits, since the codec shifts and ORs them (R102, R142).
`NOW` and `RND` are ports, not operands (R32). -/

namespace Sys2Proof

/-- A command. Whether an id or an attribute code is a valid one is not part of the syntax: the
command's own rule tests it (R76, R78, R79). A term no word can hold is refused by `wellFormed`
and otherwise means what its numbers say (DESIGN CHOICE, log 11). -/
inductive Instr where
  /-- GET ID, AN (R105). -/
  | get (id an : Nat)
  /-- SET ID, AN, VAL (R106). -/
  | set (id an : Nat) (val : Byte)
  /-- RNDCOL ID (R130). -/
  | rndcol (id : Nat)
  /-- RNDPOS ID (R131). -/
  | rndpos (id : Nat)
  /-- RNDDIR ID (R132). -/
  | rnddir (id : Nat)
  /-- MOVE ID (R172). -/
  | move (id : Nat)
  /-- SETCELL LAYER, ROW, COL, COLOUR (R140). -/
  | setcell (layer row col : Nat) (colour : Colour)
  /-- REFRESH (R158). -/
  | refresh
  /-- TICK (R174). -/
  | tick
  deriving DecidableEq, Repr

end Sys2Proof
end

