-- ==== Sys2Proof/Machine/Dispatch.lean ====
section
/-! DEFINITION. One arm per command (30_encoding.md rule R74), each a call of its meaning. -/

namespace Sys2Proof.Machine

def exec (i : Instr) (s : State) : Host.Outcome State Fault Refusal :=
  match i with
  | .get id an => Sys2Proof.Machine.execGet id an s
  | .set id an val => Sys2Proof.Machine.execSet id an val s
  | .rndcol id => Sys2Proof.Machine.execRndcol id s
  | .rndpos id => Sys2Proof.Machine.execRndpos id s
  | .rnddir id => Sys2Proof.Machine.execRnddir id s
  | .move id => Sys2Proof.Machine.execMove id s
  | .setcell layer row col colour => Sys2Proof.Machine.execSetcell layer row col colour s
  | .refresh => Sys2Proof.Machine.execRefresh s
  | .tick => Sys2Proof.Machine.execTick s

end Sys2Proof.Machine
end

