-- ==== Sys2Proof/WellFormed.lean ====
section
/-! DEFINITION. Which terms of `Instr` a command word can hold: every operand fits the field that
carries it (30_encoding.md rules R71, R72). -/

namespace Sys2Proof

/-- `ID` has 5 bits and `AN` 4 (R71); the coordinates have 8 each (R72). -/
def Instr.wellFormed : Instr → Bool
  | .get id an => decide (id < 32) && decide (an < 16)
  | .set id an _ => decide (id < 32) && decide (an < 16)
  | .rndcol id => decide (id < 32)
  | .rndpos id => decide (id < 32)
  | .rnddir id => decide (id < 32)
  | .move id => decide (id < 32)
  | .setcell layer row col _ => decide (layer < 256) && decide (row < 256) && decide (col < 256)
  | .refresh => true
  | .tick => true

end Sys2Proof
end

