-- ==== Sys2Proof/Decode.lean ====
section
/-! DEFINITION. Decoding, total on all 2^32 command words (30_encoding.md rules R70 to R77), and
after it the encoder, written from the formats of rules R71 to R73. -/

namespace Sys2Proof

/-- What a command word stands for (R76): a command, or RESERVED (R77). -/
inductive DecodeResult where
  | command (i : Instr)
  /-- A word that matches no row of rule R74; the block ignores it (R77). -/
  | reserved
  deriving DecidableEq, Repr

/-- `ID = CMD[27:23]` (R75). -/
def idField (w : Word) : Nat := (w.extractLsb' 23 5).toNat
/-- `AN = CMD[22:19]` (R75). -/
def anField (w : Word) : Nat := (w.extractLsb' 19 4).toNat
/-- `VAL = CMD[7:0]` (R75). -/
def valField (w : Word) : Byte := w.extractLsb' 0 8
/-- `LAYER = CMD[27:20]` (R75). -/
def layerField (w : Word) : Nat := (w.extractLsb' 20 8).toNat
/-- `ROW = CMD[19:12]` (R75). -/
def rowField (w : Word) : Nat := (w.extractLsb' 12 8).toNat
/-- `COL = CMD[11:4]` (R75). -/
def colField (w : Word) : Nat := (w.extractLsb' 4 8).toNat
/-- `COLOUR = CMD[1:0]` (R75). -/
def colourField (w : Word) : Colour := w.extractLsb' 0 2

/-- One row of the opcode map (R74): a word `w` selects it iff `(w & mask) == pattern`. -/
structure OpRow where
  pattern : Word
  mask : Word
  build : Word → Instr

/-- The opcode map (R74), in table order. -/
def opRows : List OpRow :=
  [ ⟨0x10000000, 0xF007FFFF, fun w => .get (idField w) (anField w)⟩,
    ⟨0x20000000, 0xF007FF00, fun w => .set (idField w) (anField w) (valField w)⟩,
    ⟨0x30000000, 0xF07FFFFF, fun w => .rndcol (idField w)⟩,
    ⟨0x40000000, 0xF07FFFFF, fun w => .rndpos (idField w)⟩,
    ⟨0x50000000, 0xF07FFFFF, fun w => .rnddir (idField w)⟩,
    ⟨0x60000000, 0xF07FFFFF, fun w => .move (idField w)⟩,
    ⟨0x70000000, 0xF000000C,
      fun w => .setcell (layerField w) (rowField w) (colField w) (colourField w)⟩,
    ⟨0x80000000, 0xFFFFFFFF, fun _ => .refresh⟩,
    ⟨0x90000000, 0xFFFFFFFF, fun _ => .tick⟩ ]

/-- The first row that matches decides; no match is RESERVED (R76). -/
def decodeWith : List OpRow → Word → DecodeResult
  | [], _ => .reserved
  | r :: rs, w => if w &&& r.mask = r.pattern then .command (r.build w) else decodeWith rs w

/-- `decode` (R76). -/
def decode (w : Word) : DecodeResult := decodeWith opRows w

/-- The command word whose bits are the numeral `w`, of which the table counts `nbits`. A command
word is 32 bits (R70): a longer numeral has none (DESIGN CHOICE, log 12). -/
def tableWord (nbits w : Nat) : Option Word :=
  if w % 2 ^ nbits < 2 ^ 32 then some (BitVec.ofNat 32 (w % 2 ^ nbits)) else none

/-- The instruction the decoder reads from the word of an opcode-table row. -/
def decodeTableWord (nbits w : Nat) : Option Instr :=
  match tableWord nbits w with
  | none => none
  | some word =>
    match decode word with
    | .command i => some i
    | .reserved => none

/-- The opcode `OP` of each command (R74). -/
def Instr.opcode : Instr → BitVec 4
  | .get _ _ => 0x1
  | .set _ _ _ => 0x2
  | .rndcol _ => 0x3
  | .rndpos _ => 0x4
  | .rnddir _ => 0x5
  | .move _ => 0x6
  | .setcell _ _ _ _ => 0x7
  | .refresh => 0x8
  | .tick => 0x9

/-- Format S (R71): `OP`, `ID`, `AN`, eleven zeros, `VAL`. -/
def formatS (op : BitVec 4) (id an : Nat) (val : Byte) : Word :=
  op ++ BitVec.ofNat 5 id ++ BitVec.ofNat 4 an ++ 0#11 ++ val

/-- Format C (R72): `OP`, `LAYER`, `ROW`, `COL`, two zeros, `COLOUR`. -/
def formatC (op : BitVec 4) (layer row col : Nat) (colour : Colour) : Word :=
  op ++ BitVec.ofNat 8 layer ++ BitVec.ofNat 8 row ++ BitVec.ofNat 8 col ++ 0#2 ++ colour

/-- Format Z (R73): `OP` and 28 zeros. -/
def formatZ (op : BitVec 4) : Word := op ++ 0#28

/-- The command word of a well-formed instruction (R71 to R74). -/
def encode (i : Instr) : Word :=
  match i with
  | .get id an => formatS i.opcode id an 0
  | .set id an val => formatS i.opcode id an val
  | .rndcol id => formatS i.opcode id 0 0
  | .rndpos id => formatS i.opcode id 0 0
  | .rnddir id => formatS i.opcode id 0 0
  | .move id => formatS i.opcode id 0 0
  | .setcell layer row col colour => formatC i.opcode layer row col colour
  | .refresh => formatZ i.opcode
  | .tick => formatZ i.opcode

end Sys2Proof
end

