-- ==== Sys2Proof/Machine/Fetch.lean ====
section
/-! DEFINITION. Taking the next command from the command port (00_scope.md rule R7, 30_encoding.md
rules R76, R77). There is no program counter: the order of execution is the order in which the
caller presents commands (R33). -/

namespace Sys2Proof.Machine

variable {W : Nat}

/-- What a step finds on the command port. -/
inductive Fetched (W : Nat) where
  /-- No command is presented: nothing changes (R7). -/
  | idle
  /-- A RESERVED word was presented and is ignored (R77); it is taken from the port like any other
  command (DESIGN CHOICE, log 14). -/
  | ignored (s : State W)
  /-- A command was presented and its ports sampled. -/
  | run (i : Instr) (s : State W)

/-- The next command, decoded, with the state in which it executes. -/
def fetch (s : State W) : Fetched W :=
  match s.inbox with
  | [] => .idle
  | r :: rest =>
    match decode r.cmd with
    | .reserved => .ignored (s.present r rest)
    | .command i => .run i (s.present r rest)

/-- The requests with the next one's command word replaced by `w`; with none waiting, one is
presented with the port readings given. -/
def withNextCommand (w : Word) (now : Clock W) (rnd : BitVec 15) :
    List (Request W) → List (Request W)
  | [] => [⟨w, now, rnd⟩]
  | r :: rest => { r with cmd := w } :: rest

end Sys2Proof.Machine
end

