-- ==== Sys2Proof/Machine/Step.lean ====
section
/-! DEFINITION. One step: the block takes the next command from its port and executes it as one
atomic transition (00_scope.md rule R7). -/

namespace Sys2Proof.Machine

/-- One command (R7, R11). -/
def step (s : State) : Host.Outcome State Fault Refusal :=
  match fetch s with
  | .idle => .next s
  | .ignored s' => .next s'
  | .run i s' => exec i s'

/-- `s` with the word of an opcode-table row as the next command the caller presents
(DESIGN CHOICE, log 2). -/
def State.withFetchWord (s : State) (nbits w : Nat) : State :=
  { s with inbox := withNextCommand (BitVec.ofNat 32 (w % 2 ^ nbits)) s.now s.rnd s.inbox }

end Sys2Proof.Machine
end

