-- ==== Sys2Proof/Machine/Configured.lean ====
section
/-! DEFINITION. The same machine at an arbitrary configuration, so that a claim may quantify over
the parameters of 00_scope.md rule R6. `exec` and `step` are these at `defaultConfig`
(Laws/Step.lean). -/

namespace Sys2Proof.Machine

/-- `exec` of an instance with configuration `cfg`. -/
def execIn (cfg : Config) (i : Instr) (s : State cfg.clockW) : Result cfg.clockW :=
  match i with
  | .get id an => getIn cfg id an s
  | .set id an val => setIn cfg id an val s
  | .rndcol id => rndcolIn cfg id s
  | .rndpos id => rndposIn cfg id s
  | .rnddir id => rnddirIn cfg id s
  | .move id => moveIn cfg id s
  | .setcell layer row col colour => setcellIn layer row col colour s
  | .refresh => refreshIn cfg s
  | .tick => tickIn cfg cfg.period s

/-- `step` of an instance with configuration `cfg`. -/
def stepIn (cfg : Config) (s : State cfg.clockW) : Result cfg.clockW :=
  match fetch s with
  | .idle => .next s
  | .ignored s' => .next s'
  | .run i s' => execIn cfg i s'

end Sys2Proof.Machine
end

