-- ==== Sys2Proof/Machine/Pseudo.lean ====
section
/-! DEFINITION. The pseudo-commands of 30_encoding.md rule R85: each stands for a sequence of
commands, and none is atomic as a whole. -/

namespace Sys2Proof.Machine

/-- `CLRCELL L, R, C` (R85). -/
def clrcell (layer row col : Nat) : List Instr := [.setcell layer row col 0]

/-- `PLACE id, x, y, z` (R85). -/
def place (id : Nat) (x y z : Byte) : List Instr :=
  [.set id (attrCode .x) x, .set id (attrCode .y) y, .set id (attrCode .z) z]

/-- `SHOW id` (R85). -/
def show_ (id : Nat) : List Instr :=
  [.set id (attrCode .state) 1, .set id (attrCode .visible) 1]

/-- `HIDE id` (R85). -/
def hide (id : Nat) : List Instr := [.set id (attrCode .visible) 0]

/-- `FRAME` (R85): REFRESH twelve times. -/
def frame : List Instr := List.replicate 12 .refresh

end Sys2Proof.Machine
end

