-- ==== Sys2Proof/Safety.lean ====
section
/-! DEFINITION. The terms claims use: what a caller and its environment owe the block, the
invariants of the machine, and the spec's own view of sprite words, cells and commands, written
from 10_state.md rule R22, 20_memory.md rules R51 and R52 and 40_attribute_codec.md rules R103,
R104 and R107, apart from the definitions the meanings use. -/

namespace Sys2Proof.Safety

open Sys2Proof.Machine

/-! ## Sprite words as rule R22 lays them out -/

/-- The lowest word bit of an attribute (R22). -/
def fieldLow : Attr → Nat
  | .colour => 0
  | .x => 2
  | .y => 5
  | .visible => 8
  | .direction => 9
  | .z => 13
  | .move => 16
  | .wrap => 17
  | .attack => 18
  | .defend => 21
  | .state => 24
  | .speed => 25

/-- The width of an attribute (R22, R100). -/
def fieldWidth : Attr → Nat
  | .colour => 2
  | .x => 3
  | .y => 3
  | .visible => 1
  | .direction => 4
  | .z => 3
  | .move => 1
  | .wrap => 1
  | .attack => 3
  | .defend => 3
  | .state => 1
  | .speed => 3

/-- The value of an attribute in a sprite word: the slice of rule R22. -/
def attrValue (w : Word) (a : Attr) : Nat := (w.extractLsb' (fieldLow a) (fieldWidth a)).toNat

/-- The first word bit above an attribute's group (R23). -/
def groupEnd (a : Attr) : Nat := 8 * (fieldLow a / 8) + 8

/-- `w'` is `w` after a write of `v` to the attribute, bit by bit (R107): the field takes the low
bits of `v`, the bits above the field in its group are ORed with the excess of `v`, every other bit
of the word is unchanged. -/
def Written (w w' : Word) (a : Attr) (v : Byte) : Prop :=
  ∀ k : Nat, w'.getLsbD k =
    if k < fieldLow a then w.getLsbD k
    else if k < fieldLow a + fieldWidth a then v.getLsbD (k - fieldLow a)
    else if k < groupEnd a then (w.getLsbD k || v.getLsbD (k - fieldLow a))
    else w.getLsbD k

/-- The cell (layer, row, column) = (z, y, x) a sprite word names (R104). -/
def cellOf (w : Word) : Nat × Nat × Nat := (attrValue w .z, attrValue w .y, attrValue w .x)

/-- The code a sprite word shows (R103). -/
def litOf (w : Word) : Colour :=
  if attrValue w .visible = 1 ∧ attrValue w .state = 1 then w.extractLsb' 0 2 else 0

/-- Visible and live (R25 (b)). -/
def Shown (w : Word) : Prop := attrValue w .visible = 1 ∧ attrValue w .state = 1

/-! ## Command words as rules R70 to R77 lay them out -/

/-- A RESERVED word (R77, with the must-be-zero fields of R71 to R73): an undefined opcode, or a
defined one with a non-zero must-be-zero bit. -/
def ReservedWord (w : Word) : Prop :=
  let op := (w.extractLsb' 28 4).toNat
  (op = 0 ∨ 10 ≤ op) ∨
    (op = 1 ∧ w.extractLsb' 0 19 ≠ 0) ∨
    (op = 2 ∧ w.extractLsb' 8 11 ≠ 0) ∨
    ((3 ≤ op ∧ op ≤ 6) ∧ w.extractLsb' 0 23 ≠ 0) ∨
    (op = 7 ∧ w.extractLsb' 2 2 ≠ 0) ∨
    ((op = 8 ∨ op = 9) ∧ w.extractLsb' 0 28 ≠ 0)

/-! ## Cells -/

/-- A cell of the cube: every coordinate is 0 to 5 (R12). -/
def InCube (c : Nat × Nat × Nat) : Prop := c.1 ≤ 5 ∧ c.2.1 ≤ 5 ∧ c.2.2 ≤ 5

/-- The byte index of a cell, by the source's formula (R51). -/
def byteOf (c : Nat × Nat × Nat) : Nat := (72 * c.1 + 12 * c.2.1 + 2 * c.2.2) / 8

/-- Bit `p` of the buffer as one 432-bit little-endian value (R52). -/
def bufferBit (m : Memory) (p : Nat) : Bool := (m.byteAt (p / 8)).getLsbD (p % 8)

/-- The code of a cell, read from that value: bits `[pos+1:pos]` (R52). -/
def cellCode (m : Memory) (c : Nat × Nat × Nat) : Colour :=
  let pos := 72 * c.1 + 12 * c.2.1 + 2 * c.2.2
  BitVec.ofBool (bufferBit m (pos + 1)) ++ BitVec.ofBool (bufferBit m pos)

/-- The frame buffer after one synchronised write that turned the sprite word `w` into `w'` (R104):
the cell of `w'` shows what `w'` shows, the cell of `w` is off unless it is that one, every other
cell is as before; no byte changes but those of the two cells that exist. -/
structure Synced (m m' : Memory) (w w' : Word) : Prop where
  cells : ∀ c, InCube c → cellCode m' c =
    if c = cellOf w' then litOf w' else if c = cellOf w then 0 else cellCode m c
  bytes : ∀ a, (InCube (cellOf w) → a ≠ byteOf (cellOf w)) →
    (InCube (cellOf w') → a ≠ byteOf (cellOf w')) → m'.byteAt a = m.byteAt a

/-- The display shows exactly the visible live sprites (R211, R25 (b)): a cell holds the colour of
every sprite shown there, and is off where none is. -/
def Displayed (s : State) : Prop :=
  ∀ c, InCube c →
    (∀ i, Shown (s.sprite i) → cellOf (s.sprite i) = c →
      cellCode s.fb c = (s.sprite i).extractLsb' 0 2) ∧
    ((∀ i, Shown (s.sprite i) → cellOf (s.sprite i) ≠ c) → cellCode s.fb c = 0)

/-! ## What the caller and the environment owe -/

/-- A command the caller may issue (R218): a valid sprite id and, where it has one, a recognized
attribute name. -/
def callerOk : Instr → Bool
  | .get id an => decide (id ≤ 24) && decide (an ≤ 11)
  | .set id an _ => decide (id ≤ 24) && decide (an ≤ 11)
  | .rndcol id => decide (id ≤ 24)
  | .rndpos id => decide (id ≤ 24)
  | .rnddir id => decide (id ≤ 24)
  | .move id => decide (id ≤ 24)
  | .setcell _ _ _ _ => true
  | .refresh => true
  | .tick => true

/-- A value inside its attribute's width (R213). -/
def InWidth (a : Attr) (v : Byte) : Prop := v.toNat < 2 ^ fieldWidth a

/-- A command whose value operand keeps rule R213 and the source's range of a coordinate (R25 (a)). -/
def valueOk : Instr → Prop
  | .set _ an v => ∀ a, an = attrCode a → InWidth a v ∧ (a ∈ [.x, .y, .z] → v.toNat ≤ 5)
  | _ => True

/-- The sprite id operand of a format S command (R71). -/
def spriteId : Instr → Option Nat
  | .get id _ => some id
  | .set id _ _ => some id
  | .rndcol id => some id
  | .rndpos id => some id
  | .rnddir id => some id
  | .move id => some id
  | .setcell _ _ _ _ => none
  | .refresh => none
  | .tick => none

/-- The default configuration with the AN_DEFEND setter defect reproduced (R108). -/
abbrev parityConfig : Config := { defaultConfig with defendParity := true }

/-- The ranges the random source must keep for a position (R82). -/
def PositionDrawsOk (rnd : BitVec 15) : Prop :=
  (rnd.extractLsb' 2 3).toNat ≤ 5 ∧ (rnd.extractLsb' 5 3).toNat ≤ 5 ∧
    (rnd.extractLsb' 8 3).toNat ≤ 5

/-- What rule R152 (a) to (d) asks of `PAT`; (e) holds by its type. -/
structure PatOk (cfg : Config) : Prop where
  redInPhase0 : cfg.pat 0 1 = cfg.pat 0 0
  greenInPhase1 : cfg.pat 1 2 = cfg.pat 1 0
  blueInPhase1 : cfg.pat 1 3 = cfg.pat 1 0
  greenLights : cfg.pat 0 2 ≠ cfg.pat 0 0
  blueLights : cfg.pat 0 3 ≠ cfg.pat 0 0
  greenBlueDiffer : cfg.pat 0 2 ≠ cfg.pat 0 3
  redLights : cfg.pat 1 1 ≠ cfg.pat 1 0

/-! ## Invariants of the machine -/

/-- The layer the most recent REFRESH energized, if there was one (R156, R157). -/
def shownLayer {W : Nat} (s : State W) : Nat :=
  if s.mplexCounter = 1 then s.layerCounter.toNat else (s.layerCounter.toNat + 5) % 6

/-- What holds between two commands (R27, R31, R155, R156): the frame buffer is canonical and lies
in `FB[0..53]`, the layer counter is legal, the shift clock and the latch are low, and no layer is
energized but the one the most recent REFRESH selected. -/
structure Inv {W : Nat} (s : State W) : Prop where
  memory : s.fb.wf = true
  layer : s.layerCounter.toNat ≤ 5
  clockLow : s.clock = false
  latchLow : s.latch = false
  oneHot : s.layerEn = 0 ∨ s.layerEn = 1#6 <<< shownLayer s

/-- The source's invariant "x, y, z ∈ [0,5]" (R25 (a)). -/
def CoordsOk (s : State) : Prop := ∀ i, InCube (cellOf (s.sprite i))

/-! ## One axis of a move, as rule R171 states it -/

/-- The coordinate after one step of one axis. -/
def stepped (v : Nat) (d : Delta) (wrap : Bool) : Nat :=
  match d with
  | .zero => v
  | .pos => if v + 1 ≤ 5 then v + 1 else if wrap then 0 else v
  | .neg => if 1 ≤ v ∧ v ≤ 6 then v - 1 else if wrap then 5 else v

/-- The deltas (dx, dy, dz) of the direction codes 0 to 15, row by row (R170). -/
def directionTable : List (Int × Int × Int) :=
  [(1, 0, 0), (-1, 0, 0), (0, 1, 0), (0, -1, 0), (0, 0, 1), (0, 0, -1), (-1, 1, 1), (1, 1, 1),
    (-1, 1, -1), (1, 1, -1), (-1, -1, 1), (1, -1, 1), (-1, -1, -1), (1, -1, -1), (0, 0, 0), (0, 0, 0)]

/-- The periods of the classes 0 to 6 (00_scope.md rule R6). -/
def periodTable : List Nat := [0, 25, 50, 100, 200, 400, 800]

/-- The cells written by three coordinate writes in the order x, y, z (R131, R172, R216): the cell
the sprite stands on and the one it reaches after each write. -/
def route (w : Word) (x' y' z' : Nat) : List (Nat × Nat × Nat) :=
  let x := attrValue w .x
  let y := attrValue w .y
  let z := attrValue w .z
  [(z, y, x), (z, y, x'), (z, y', x'), (z', y', x')]

/-- The direction row of a sprite word (R170). -/
def deltasOf (w : Word) : Deltas := defaultConfig.dirTab (w.extractLsb' 9 4)

/-- The wrap flag of a sprite word (R24). -/
def wrapOf (w : Word) : Bool := decide (attrValue w .wrap = 1)

/-- The coordinate of a sprite word after one step of its axis (R171, R172). -/
def steppedX (w : Word) : Nat := stepped (attrValue w .x) (deltasOf w).dx (wrapOf w)
/-- See `steppedX`. -/
def steppedY (w : Word) : Nat := stepped (attrValue w .y) (deltasOf w).dy (wrapOf w)
/-- See `steppedX`. -/
def steppedZ (w : Word) : Nat := stepped (attrValue w .z) (deltasOf w).dz (wrapOf w)

/-- The cells a sprite's step can write (R172, R216). -/
def path (w : Word) : List (Nat × Nat × Nat) := route w (steppedX w) (steppedY w) (steppedZ w)

/-- Only the cells of a list, and the bytes that hold them, can differ. -/
structure Untouched (m m' : Memory) (cells : List (Nat × Nat × Nat)) : Prop where
  otherCells : ∀ c, InCube c → c ∉ cells → cellCode m' c = cellCode m c
  otherBytes : ∀ a, (∀ c ∈ cells, InCube c → a ≠ byteOf c) → m'.byteAt a = m.byteAt a

/-- The frame buffer after a sprite went along a route and its word became `w'` (R216): the cell it
ends on shows what `w'` shows, every other cell of the route is off. -/
structure Travelled (m' : Memory) (cells : List (Nat × Nat × Nat)) (w' : Word) : Prop where
  final : InCube (cellOf w') → cellCode m' (cellOf w') = litOf w'
  cleared : ∀ c ∈ cells, InCube c → c ≠ cellOf w' → cellCode m' c = 0

/-- One axis of a step as attribute writes (R172): an axis whose coordinate stays is not written, any
other is one SET of the new coordinate. -/
def AxisBySet (i : Fin 25) (ax : Axis) (d : Delta) (wrap : Bool) (s t : State) : Prop :=
  let v := attrValue (s.sprite i) (Axis.attr ax)
  if stepped v d wrap = v then t = s
  else exec (.set i.val (attrCode (Axis.attr ax)) (BitVec.ofNat 8 (stepped v d wrap))) s = .next t

/-- Class `c` is eligible at the clock reading `now` (R173). -/
def Eligible (s : State) (now : Clock) (c : Fin 7) : Prop :=
  periodTable.getD c.val 0 < (now - s.lastOf c).toNat

/-- TICK moves the sprite that holds `w` (R174, R176). -/
def TickMoves (s : State) (w : Word) : Prop :=
  attrValue w .move = 1 ∧ ∃ c : Fin 7, attrValue w .speed = c.val ∧ Eligible s s.now c

/-! ## Runs -/

/-- Commands executed in issue order, each by `exec` (R33, R85). -/
def execAll : List Instr → State → Result
  | [], s => .next s
  | i :: is, s =>
    match exec i s with
    | .next s' => execAll is s'
    | .fault f => .fault f
    | .refused r => .refused r

/-- `n` steps, stopping at the first that does not go on. -/
def run : Nat → State → Result
  | 0, s => .next s
  | n + 1, s =>
    match step s with
    | .next s' => run n s'
    | .fault f => .fault f
    | .refused r => .refused r

end Sys2Proof.Safety
end

