-- ==== Sys2Proof/Certificates/Slice0/Obligations.lean ====
section
/-! DEFINITION. The statements for the provers. Each docstring names the rule of the spec it
formalises. The vocabulary is that of Sys2Proof/Safety.lean. -/

open Sys2Proof Sys2Proof.Machine Sys2Proof.Safety

/-! ## Encoding (30_encoding.md) -/

/-- Decoding the word of any well-formed instruction gives it back (R70 to R76). -/
def Obligations.DecodeOfEncodeIsIdentity : Prop :=
  ∀ i : Instr, i.wellFormed = true → decode (encode i) = .command i

/-- Whatever a word decodes to is well formed and has that word as its only encoding (R74 to R76). -/
def Obligations.EncodeOfDecodeIsIdentity : Prop :=
  ∀ (w : Word) (i : Instr), decode w = .command i → i.wellFormed = true ∧ encode i = w

/-- The RESERVED words, by their fields (R71 to R74, R76, R77). -/
def Obligations.ReservedWordsAreExactlyThese : Prop :=
  ∀ w : Word, decode w = .reserved ↔ ReservedWord w

/-- The examples of rule R84, word by word, and the all-zero word of R77. -/
def Obligations.SampleWordsDecodeAsWritten : Prop :=
  decode 0x11880000 = .command (.get 3 1) ∧
  decode 0x21880005 = .command (.set 3 1 5) ∧
  decode 0x20000003 = .command (.set 0 0 3) ∧
  decode 0x32000000 = .command (.rndcol 4) ∧
  decode 0x6C000000 = .command (.move 24) ∧
  decode 0x70505052 = .command (.setcell 5 5 5 2) ∧
  decode 0x80000000 = .command .refresh ∧
  decode 0x90000000 = .command .tick ∧
  decode 0x00000000 = .reserved

/-! ## The step (00_scope.md rules R7, R8, 10_state.md rule R32) -/

/-- When the word on the command port decodes to an instruction, a step is `exec` of it in the state
with the command taken, its port readings sampled and its event list empty. The port fields are the
model's own (assumption log 2, 3, 4). -/
def Obligations.StepRunsTheDecodedCommand : Prop :=
  ∀ (s : State) (r : Request) (rest : List Request) (i : Instr),
    s.inbox = r :: rest → decode r.cmd = .command i →
    step s = exec i { s with inbox := rest, now := r.now, rnd := r.rnd, events := [] }

/-- A RESERVED command, whichever word it is, is ignored: no state of the block changes, not even
`RES`, and no event is produced (R77). That the word is taken from the port like any other is the
model's choice (assumption log 14, with the port fields of log 2, 3 and 4). -/
def Obligations.ReservedCommandIsIgnored : Prop :=
  ∀ (s : State) (r : Request) (rest : List Request),
    s.inbox = r :: rest → ReservedWord r.cmd →
    step s = .next { s with inbox := rest, now := r.now, rnd := r.rnd, events := [] }

/-- R7: with no command presented nothing changes (the idle step is the model's own, assumption log
2). -/
def Obligations.NoCommandNoChange : Prop :=
  ∀ s : State, s.inbox = [] → step s = .next s

/-! ## GET and SET (40_attribute_codec.md) -/

/-- R105, R101: GET completes, `RES` takes the named slice of the sprite word, zero-extended, and
nothing else changes. -/
def Obligations.GetReturnsTheAttribute : Prop :=
  ∀ (s : State) (i : Fin 25) (a : Attr),
    exec (.get i.val (attrCode a)) s =
      .next { s with res := BitVec.ofNat 32 (attrValue (s.sprite i) a) }

/-- With an unrecognized name and a valid id, GET completes with an unspecified value in `RES` and
changes nothing else; SET is refused (R109). The value is a fresh one for each value of the draw
counter, which is the model's own (assumption log 7); no claim may rest on it. -/
def Obligations.UnrecognizedNames : Prop :=
  ∀ (s : State) (i : Fin 25) (an : Nat), 12 ≤ an →
    exec (.get i.val an) s =
      .next { s with res := Config.freeRes s.draws, draws := s.draws + 1 } ∧
    ∀ v, exec (.set i.val an v) s = .refused .unknownAttributeSet

/-- R102, R104: SET of a recognized name completes, whatever the value: the sprite's word is written bit
by bit as rule R107 says; for a sync attribute the old cell is cleared and the new one lit, for any
other the frame buffer is not touched; nothing else changes. -/
def Obligations.SetWritesAndSynchronises : Prop :=
  ∀ (s : State) (i : Fin 25) (a : Attr) (v : Byte), s.fb.wf = true →
    ∃ w m, exec (.set i.val (attrCode a) v) s =
        .next { s with spr := s.spr.set i.val w i.isLt, fb := m } ∧
      Written (s.sprite i) w a v ∧
      (a ∈ [Attr.colour, .x, .y, .visible, .z, .state] → Synced s.fb m (s.sprite i) w) ∧
      (a ∈ [Attr.direction, .move, .wrap, .attack, .defend, .speed] → m = s.fb)

/-- R112 (a): set, then get, returns the value, for every attribute, every value inside its width,
every sprite and every sprite word. -/
def Obligations.SetThenGetReturnsTheValue : Prop :=
  ∀ (s : State) (i : Fin 25) (a : Attr) (v : Byte), InWidth a v →
    ∃ t, exec (.set i.val (attrCode a) v) s = .next t ∧
      exec (.get i.val (attrCode a)) t = .next { t with res := v.setWidth 32 }

/-- R112 (b): a SET inside the width changes no other attribute; no SET changes a bit outside the
attribute's group, or another sprite. -/
def Obligations.SetIsIsolated : Prop :=
  ∀ (s : State) (i : Fin 25) (a : Attr) (v : Byte),
    ∃ t, exec (.set i.val (attrCode a) v) s = .next t ∧
      (InWidth a v → ∀ b, b ≠ a → attrValue (t.sprite i) b = attrValue (s.sprite i) b) ∧
      (∀ k, k / 8 ≠ fieldLow a / 8 → (t.sprite i).getLsbD k = (s.sprite i).getLsbD k) ∧
      (∀ j, j ≠ i → t.sprite j = s.sprite j)

/-- R112 (c): after a SET of x, y or z the cell at the previous coordinates reads off, unless the
coordinates did not change, and then it shows what the sprite shows. -/
def Obligations.SetOfPositionClearsTheOldCell : Prop :=
  ∀ (s : State) (i : Fin 25) (a : Attr) (v : Byte), s.fb.wf = true → a ∈ [Attr.x, .y, .z] →
    InCube (cellOf (s.sprite i)) →
    ∃ t, exec (.set i.val (attrCode a) v) s = .next t ∧
      cellCode t.fb (cellOf (s.sprite i)) =
        if cellOf (t.sprite i) = cellOf (s.sprite i) then litOf (t.sprite i) else 0

/-- With `DEFEND_PARITY` = false the AN_DEFEND setter is like every other; with it true the defend
field takes `VAL[2:0]`, the other five bits of group 2 an unspecified value, and nothing else
changes (R108). The value is a fresh one for each value of the draw counter, which is the model's
own (assumption log 7). -/
def Obligations.DefendSetterInBothModes : Prop :=
  ∀ (s : State) (i : Fin 25) (v : Byte),
    (∃ w, exec (.set i.val (attrCode .defend) v) s =
        .next { s with spr := s.spr.set i.val w i.isLt } ∧ Written (s.sprite i) w .defend v) ∧
    ∃ w, execIn parityConfig (.set i.val (attrCode .defend) v) s =
        .next { s with spr := s.spr.set i.val w i.isLt, draws := s.draws + 1 } ∧
      ∀ k, w.getLsbD k =
        if 16 ≤ k ∧ k < 21 then (Config.freeGroup s.draws).getLsbD (k - 16)
        else if 21 ≤ k ∧ k < 24 then v.getLsbD (k - 21)
        else (s.sprite i).getLsbD k

/-- R110: every format S command with an id above 24 is refused, whatever its other operands. -/
def Obligations.IdOutOfRangeIsRefused : Prop :=
  ∀ (s : State) (id : Nat), 25 ≤ id →
    (∀ an, exec (.get id an) s = .refused .idOutOfRange) ∧
    (∀ an v, exec (.set id an v) s = .refused .idOutOfRange) ∧
    exec (.rndcol id) s = .refused .idOutOfRange ∧
    exec (.rndpos id) s = .refused .idOutOfRange ∧
    exec (.rnddir id) s = .refused .idOutOfRange ∧
    exec (.move id) s = .refused .idOutOfRange

/-! ## The random helpers (41_sprite_store.md) -/

/-- R130: RNDCOL is exactly SET of the colour with `RND_C`, for every id and any draw; for a valid id it
completes, writes the colour field and synchronises the sprite's cell. -/
def Obligations.RndcolSetsTheColour : Prop :=
  ∀ s : State,
    (∀ id, exec (.rndcol id) s = exec (.set id 0 ((s.rnd.extractLsb' 0 2).setWidth 8)) s) ∧
    ∀ i : Fin 25, s.fb.wf = true →
      ∃ w m, exec (.rndcol i.val) s =
          .next { s with spr := s.spr.set i.val w i.isLt, fb := m } ∧
        Written (s.sprite i) w .colour ((s.rnd.extractLsb' 0 2).setWidth 8) ∧
        Synced s.fb m (s.sprite i) w

/-- R131: RNDPOS is exactly SET of x, y and z with the three draws, in that order, as one command;
with an id out of range it is refused. -/
def Obligations.RndposIsThreeSets : Prop :=
  ∀ s : State,
    (∀ i : Fin 25, ∃ t₁ t₂ t₃,
      exec (.set i.val 1 ((s.rnd.extractLsb' 2 3).setWidth 8)) s = .next t₁ ∧
      exec (.set i.val 2 ((s.rnd.extractLsb' 5 3).setWidth 8)) t₁ = .next t₂ ∧
      exec (.set i.val 5 ((s.rnd.extractLsb' 8 3).setWidth 8)) t₂ = .next t₃ ∧
      exec (.rndpos i.val) s = .next t₃) ∧
    ∀ id, 25 ≤ id → exec (.rndpos id) s = .refused .idOutOfRange

/-- RNDPOS completes: the sprite stands at the three draws with every other field as before, the
cells it went along are off but for the last, which shows it, and nothing else changes (R131,
R216). -/
def Obligations.RndposPlacesTheSprite : Prop :=
  ∀ (s : State) (i : Fin 25), s.fb.wf = true →
    let x := (s.rnd.extractLsb' 2 3).toNat
    let y := (s.rnd.extractLsb' 5 3).toNat
    let z := (s.rnd.extractLsb' 8 3).toNat
    ∃ w m, exec (.rndpos i.val) s =
        .next { s with spr := s.spr.set i.val w i.isLt, fb := m } ∧
      attrValue w .x = x ∧ attrValue w .y = y ∧ attrValue w .z = z ∧
      (∀ a, a ∉ [Attr.x, .y, .z] → attrValue w a = attrValue (s.sprite i) a) ∧
      (∀ k, 16 ≤ k → w.getLsbD k = (s.sprite i).getLsbD k) ∧
      Untouched s.fb m (route (s.sprite i) x y z) ∧
      Travelled m (route (s.sprite i) x y z) w

/-- R132: RNDDIR is exactly SET of the direction with `RND_D`, for every id and any draw; for a valid id
it completes, writes the direction field, and leaves the frame buffer and everything else. -/
def Obligations.RnddirSetsTheDirection : Prop :=
  ∀ s : State,
    (∀ id, exec (.rnddir id) s = exec (.set id 4 ((s.rnd.extractLsb' 11 4).setWidth 8)) s) ∧
    ∀ i : Fin 25,
      ∃ w, exec (.rnddir i.val) s = .next { s with spr := s.spr.set i.val w i.isLt } ∧
        Written (s.sprite i) w .direction ((s.rnd.extractLsb' 11 4).setWidth 8)

/-! ## SETCELL (42_framebuffer.md) -/

/-- R140, R141, R56: SETCELL completes. If any coordinate exceeds 5 it changes nothing; otherwise it
changes the two bits of its cell, no other bit of the buffer, no other byte and no other state, and
nothing at all where the cell already holds the code. -/
def Obligations.SetcellWritesOneCell : Prop :=
  ∀ (s : State) (l r c : Nat) (v : Colour),
    ((5 < l ∨ 5 < r ∨ 5 < c) → exec (.setcell l r c v) s = .next s) ∧
    (s.fb.wf = true → l ≤ 5 → r ≤ 5 → c ≤ 5 →
      ∃ m, exec (.setcell l r c v) s = .next { s with fb := m } ∧
        (∀ p, bufferBit m p =
          if p = 72 * l + 12 * r + 2 * c then v.getLsbD 0
          else if p = 72 * l + 12 * r + 2 * c + 1 then v.getLsbD 1
          else bufferBit s.fb p) ∧
        (∀ a, a ≠ (72 * l + 12 * r + 2 * c) / 8 → m.byteAt a = s.fb.byteAt a) ∧
        (cellCode s.fb (l, r, c) = v → m = s.fb))

/-- A cell takes the last code written to it: after two SETCELLs to the same coordinates the cell, if
it exists, reads as the second code, and the state is the one the second alone reaches, so nothing
of the first is left (R56, R58, R140). -/
def Obligations.LastSetcellWins : Prop :=
  ∀ (s : State) (l r c : Nat) (v v' : Colour), s.fb.wf = true →
    ∃ t u, exec (.setcell l r c v) s = .next t ∧ exec (.setcell l r c v') t = .next u ∧
      exec (.setcell l r c v') s = .next u ∧
      (l ≤ 5 → r ≤ 5 → c ≤ 5 → cellCode u.fb (l, r, c) = v')

/-! ## REFRESH (43_multiplexer.md) -/

/-- For a legal layer REFRESH completes (R151 to R158). It blanks the layers, shifts two bits for each
of the cells 35 down to 0 in the default pattern of its phase, latches, energizes the layer and
advances the counters. It changes nothing but the counters, the lines and the events. That the
events join a list in the state is the model's choice (assumption log 4). -/
def Obligations.RefreshShiftsTheLayer : Prop :=
  ∀ s : State, s.layerCounter.toNat ≤ 5 →
    let layer := s.layerCounter.toNat
    ∃ bits : List Bool, bits.length = 72 ∧
      (∀ k, k < 36 →
        let code := cellCode s.fb (layer, k / 6, k % 6)
        bits.getD (2 * (35 - k)) false = decide (s.mplexCounter = 0 ∧ (code = 2 ∨ code = 3)) ∧
        bits.getD (2 * (35 - k) + 1) false =
          if s.mplexCounter = 0 then decide (code = 3) else decide (code = 1)) ∧
      exec .refresh s = .next { s with
        data := bits.getD 71 false
        clock := false
        latch := false
        layerEn := 1#6 <<< layer
        events := s.events ++ ([.layerEn 0] ++
          bits.flatMap (fun b => [.data b, .clock true, .clock false]) ++
          [.latch true, .latch false, .layerEn (1#6 <<< layer)])
        layerCounter := if s.mplexCounter = 0 then s.layerCounter
          else BitVec.ofNat 3 ((layer + 1) % 6)
        mplexCounter := if s.mplexCounter = 0 then 1 else 0 }

/-- For every configuration, whatever its `NPULSE` and `PAT`, REFRESH of a legal layer returns exactly
`1 + 3 * 36 * NPULSE + 2 + 1` events (R158, R152 (e)). -/
def Obligations.RefreshEventCount : Prop :=
  ∀ (cfg : Config) (s : State cfg.clockW), s.layerCounter.toNat ≤ 5 →
    ∃ t es, execIn cfg .refresh s = .next t ∧ t.events = s.events ++ es ∧
      es.length = 1 + 3 * 36 * cfg.nPulse + 2 + 1

/-- R161, R158: REFRESH reads the frame buffer and the two counters alone; states that agree on these
return the same events and drive the lines alike, at any configuration. -/
def Obligations.RefreshDependsOnTheBufferAlone : Prop :=
  ∀ (cfg : Config) (s s' : State cfg.clockW), PatOk cfg → s.layerCounter.toNat ≤ 5 →
    s.fb = s'.fb → s.layerCounter = s'.layerCounter → s.mplexCounter = s'.mplexCounter →
    ∃ t t' es, execIn cfg .refresh s = .next t ∧ execIn cfg .refresh s' = .next t' ∧
      t.events = s.events ++ es ∧ t'.events = s'.events ++ es ∧
      t.data = t'.data ∧ t.clock = t'.clock ∧ t.latch = t'.latch ∧ t.layerEn = t'.layerEn ∧
      t.layerCounter = t'.layerCounter ∧ t.mplexCounter = t'.mplexCounter

/-- However many REFRESH commands are issued, from any legal pair of counters, each advances the pair to
the next of (0,0) (0,1) (1,0) ... (5,1), and (0,0) follows (5,1) (R157); sprites, frame buffer,
timestamps and `RES` never change (R158). The list of waiting commands is the model's own
(assumption log 2). -/
def Obligations.RefreshesCycleThroughTheCube : Prop :=
  ∀ (n : Nat) (s : State), s.layerCounter.toNat ≤ 5 →
    (∀ r ∈ s.inbox, r.cmd = 0x80000000) → n ≤ s.inbox.length →
    ∃ t, run n s = .next t ∧
      t.layerCounter.toNat = (2 * s.layerCounter.toNat + s.mplexCounter.toNat + n) / 2 % 6 ∧
      t.mplexCounter.toNat = (s.mplexCounter.toNat + n) % 2 ∧
      t.spr = s.spr ∧ t.fb = s.fb ∧ t.last = s.last ∧ t.res = s.res

/-- R85, R150: the pseudo-command FRAME completes from any legal layer and phase, and brings both
counters back. -/
def Obligations.FrameReturnsToItsStart : Prop :=
  ∀ s : State, s.layerCounter.toNat ≤ 5 →
    ∃ t, execAll frame s = .next t ∧
      t.layerCounter = s.layerCounter ∧ t.mplexCounter = s.mplexCounter ∧
      t.spr = s.spr ∧ t.fb = s.fb ∧ t.last = s.last ∧ t.res = s.res

/-- The model's own stop (assumption log 6): REFRESH faults exactly where `layerCounter` names no
layer. -/
def Obligations.RefreshOfMissingLayerFaults : Prop :=
  ∀ s : State, 5 < s.layerCounter.toNat → exec .refresh s = .fault .layerOutOfRange

/-! ## MOVE (44_movement.md) -/

/-- R172, with R171 for one axis: MOVE is up to three attribute writes, one for each axis whose
coordinate changes, in the order x, y, z; direction and wrap flag are read once. With an id out of
range it is refused. -/
def Obligations.MoveIsOneSetPerAxis : Prop :=
  ∀ s : State,
    (∀ i : Fin 25,
      let d := deltasOf (s.sprite i)
      let wr := wrapOf (s.sprite i)
      ∃ t₁ t₂ t₃, AxisBySet i .x d.dx wr s t₁ ∧ AxisBySet i .y d.dy wr t₁ t₂ ∧
        AxisBySet i .z d.dz wr t₂ t₃ ∧ exec (.move i.val) s = .next t₃) ∧
    ∀ id, 25 ≤ id → exec (.move id) s = .refused .idOutOfRange

/-- MOVE completes, whatever the sprite's flags: each coordinate takes one step as rule R171 says,
every other field stays, only cells of the path change, and nothing else does. If the word changes,
the path is off but for the cell the sprite reaches, which shows it; if not, nothing changes at all
(R171, R172, R216). -/
def Obligations.MoveStepsTheSprite : Prop :=
  ∀ (s : State) (i : Fin 25), s.fb.wf = true →
    let w := s.sprite i
    ∃ w' m, exec (.move i.val) s =
        .next { s with spr := s.spr.set i.val w' i.isLt, fb := m } ∧
      attrValue w' .x = steppedX w ∧ attrValue w' .y = steppedY w ∧
      attrValue w' .z = steppedZ w ∧
      (∀ a, a ∉ [Attr.x, .y, .z] → attrValue w' a = attrValue w a) ∧
      (∀ k, 16 ≤ k → w'.getLsbD k = w.getLsbD k) ∧
      Untouched s.fb m (path w) ∧
      (w' ≠ w → Travelled m (path w) w') ∧
      (w' = w → m = s.fb)

/-- R170: inside the cube, away from its faces, MOVE adds to each coordinate the delta the table gives
for the sprite's direction code; for a reserved code, anywhere, it changes nothing. -/
def Obligations.DirectionsMoveByTheTable : Prop :=
  ∀ (s : State) (i : Fin 25),
    let w := s.sprite i
    let d := directionTable.getD (attrValue w .direction) (0, 0, 0)
    ((∀ a ∈ [Attr.x, .y, .z], 1 ≤ attrValue w a ∧ attrValue w a ≤ 4) →
      ∃ t, exec (.move i.val) s = .next t ∧
        (attrValue (t.sprite i) .x : Int) = attrValue w .x + d.1 ∧
        (attrValue (t.sprite i) .y : Int) = attrValue w .y + d.2.1 ∧
        (attrValue (t.sprite i) .z : Int) = attrValue w .z + d.2.2) ∧
    (14 ≤ attrValue w .direction → exec (.move i.val) s = .next s)

/-! ## TICK (44_movement.md) -/

/-- R174, R175: TICK completes. It is one MOVE for each sprite whose movement flag is set and whose
class is eligible, in ascending id, eligibility judged from the state at entry; then exactly the
eligible classes are stamped with the reading sampled. -/
def Obligations.TickIsTheMovesInOrder : Prop :=
  ∀ s : State, ∃ (st : Nat → State) (l : Vector Clock 7),
    st 0 = s ∧
    (∀ i : Fin 25,
      (TickMoves s (s.sprite i) → exec (.move i.val) (st i.val) = .next (st (i.val + 1))) ∧
      (¬ TickMoves s (s.sprite i) → st (i.val + 1) = st i.val)) ∧
    exec .tick s = .next { st 25 with last := l } ∧
    (∀ c, (Eligible s s.now c → l.get c = s.now) ∧ (¬ Eligible s s.now c → l.get c = s.lastOf c))

/-- Every sprite's word after TICK: of a sprite that TICK moves, what MOVE would make of it alone; of
any other, the word it had. Only sprites, frame buffer and timestamps change, and no cell and no
byte off the moved sprites' paths does (R174, R176, R216). -/
def Obligations.TickMovesEachSpriteOnce : Prop :=
  ∀ s : State, s.fb.wf = true →
    ∃ v m l, exec .tick s = .next { s with spr := v, fb := m, last := l } ∧
      (∀ i : Fin 25,
        (TickMoves s (s.sprite i) →
          ∃ u, exec (.move i.val) s = .next u ∧ v.get i = u.sprite i) ∧
        (¬ TickMoves s (s.sprite i) → v.get i = s.sprite i)) ∧
      (∀ c, InCube c → (∀ i, TickMoves s (s.sprite i) → c ∉ path (s.sprite i)) →
        cellCode m c = cellCode s.fb c) ∧
      (∀ a, (∀ i, TickMoves s (s.sprite i) → ∀ c ∈ path (s.sprite i), InCube c → a ≠ byteOf c) →
        m.byteAt a = s.fb.byteAt a)

/-- R174: with no eligible class TICK changes nothing. -/
def Obligations.TickWithNothingEligibleChangesNothing : Prop :=
  ∀ s : State, (∀ c, ¬ Eligible s s.now c) → exec .tick s = .next s

/-- R177, R173: one wraparound of the clock is tolerated: when the true time since a class's timestamp
is `d`, less than 2^32, the class is stamped exactly when `d` exceeds its period. -/
def Obligations.TickToleratesOneWraparound : Prop :=
  ∀ (s : State) (c : Fin 7) (d : Nat), d < 2 ^ 32 →
    s.now = s.lastOf c + BitVec.ofNat 32 d →
    ∃ t, exec .tick s = .next t ∧
      t.lastOf c = if periodTable.getD c.val 0 < d then s.now else s.lastOf c

/-! ## The whole machine -/

/-- R37: every piece of state after reset. -/
def Obligations.ResetStateIsAllZero : Prop :=
  (∀ i, State.reset.sprite i = 0) ∧ (∀ a, State.reset.fb.byteAt a = 0) ∧
  State.reset.layerCounter = 0 ∧ State.reset.mplexCounter = 0 ∧
  (∀ c, State.reset.lastOf c = 0) ∧ State.reset.res = 0 ∧
  State.reset.data = false ∧ State.reset.clock = false ∧ State.reset.latch = false ∧
  State.reset.layerEn = 0

/-- The invariant `Inv` holds after reset (R27, R31, R37): the frame buffer is canonical, the layer is
legal, `CLOCK` and `LATCH` are low, and no layer is energized but possibly the one of the most recent
REFRESH. (`ResetStateIsAllZero` says that none is.) -/
def Obligations.InvariantAtReset : Prop := Inv State.reset

/-- Every step keeps the invariant, at the default configuration and at any other (R27, R31, R144,
R156, R157). -/
def Obligations.InvariantKeptByEveryStep : Prop :=
  (∀ s t : State, Inv s → step s = .next t → Inv t) ∧
  (∀ (cfg : Config) (s t : State cfg.clockW), Inv s → stepIn cfg s = .next t → Inv t)

/-- R11, R190: there is no fault outcome, in any state that meets the invariant. -/
def Obligations.NoStepFaults : Prop :=
  ∀ (s : State) (f : Fault), Inv s → step s ≠ .fault f

/-- R11, R193: a step is refused for exactly two reasons: a format S command with an id above 24, and
a SET with a valid id and an unrecognized name. -/
def Obligations.RefusalsAreExactlyThese : Prop :=
  ∀ (s : State) (q : Refusal), step s = .refused q ↔
    ∃ r rest i, s.inbox = r :: rest ∧ decode r.cmd = .command i ∧
      ((q = .idOutOfRange ∧ ∃ id, spriteId i = some id ∧ 24 < id) ∨
        (q = .unknownAttributeSet ∧ ∃ id an v, i = .set id an v ∧ id ≤ 24 ∧ 12 ≤ an))

/-- A caller that keeps rule R218 is never stopped: from a state that meets the invariant, every run
of commands with valid ids and names goes on for any number of steps, and the invariant holds all
along (R191, R194, R195, R218). -/
def Obligations.ObedientCallerIsNeverStopped : Prop :=
  ∀ (n : Nat) (s : State), Inv s →
    (∀ r ∈ s.inbox, ∀ i, decode r.cmd = .command i → callerOk i = true) →
    ∃ t, run n s = .next t ∧ Inv t

/-- Rule R62's table of who writes what, over every command and every state. -/
def Obligations.WhoWritesWhat : Prop :=
  ∀ (s t : State) (r : Request) (rest : List Request) (i : Instr),
    s.inbox = r :: rest → decode r.cmd = .command i → step s = .next t →
    (t.spr ≠ s.spr → i = .tick ∨ ∃ id, i = .rndcol id ∨ i = .rndpos id ∨ i = .rnddir id ∨
      i = .move id ∨ ∃ an v, i = .set id an v) ∧
    (t.fb ≠ s.fb → i = .tick ∨ (∃ l r c v, i = .setcell l r c v) ∨ ∃ id, i = .rndcol id ∨
      i = .rndpos id ∨ i = .move id ∨ ∃ an v, i = .set id an v) ∧
    (t.layerCounter ≠ s.layerCounter ∨ t.mplexCounter ≠ s.mplexCounter → i = .refresh) ∧
    (t.last ≠ s.last → i = .tick) ∧
    (t.res ≠ s.res → ∃ id an, i = .get id an) ∧
    (t.data ≠ s.data ∨ t.clock ≠ s.clock ∨ t.latch ≠ s.latch ∨ t.layerEn ≠ s.layerEn ∨
      t.events ≠ [] → i = .refresh)

/-- If every sprite stands inside the cube, every sprite still does after any step that goes on (an
idle or RESERVED one included), when the command on the port, if it decodes, keeps rule R213 and the
range of a coordinate in its value operand and, for RNDPOS, its draws are in their ranges (R25 (a),
R82, R171, R178). -/
def Obligations.SpritesStayInsideTheCube : Prop :=
  ∀ s t : State, CoordsOk s →
    (∀ r rest i, s.inbox = r :: rest → decode r.cmd = .command i →
      valueOk i ∧ ((∃ id, i = .rndpos id) → PositionDrawsOk r.rnd)) →
    step s = .next t → CoordsOk t

/-- R211: after reset the frame buffer shows exactly what the sprites show. -/
def Obligations.ResetDisplayIsConsistent : Prop := Displayed State.reset

/-- R25 (b), R104: where the display shows exactly the visible live sprites, it still does after any
SET to a sprite that shares neither its old nor its new cell with another visible live sprite,
unless a plain SET's value overflows its width (R214). -/
def Obligations.SetKeepsTheDisplayConsistent : Prop :=
  ∀ (s t : State) (i : Fin 25) (a : Attr) (v : Byte), s.fb.wf = true → Displayed s →
    (a ∈ [Attr.direction, .move, .wrap, .attack, .defend, .speed] → InWidth a v) →
    exec (.set i.val (attrCode a) v) s = .next t →
    (∀ j, j ≠ i → Shown (s.sprite j) →
      cellOf (s.sprite j) ≠ cellOf (s.sprite i) ∧ cellOf (s.sprite j) ≠ cellOf (t.sprite i)) →
    Displayed t

/-- R85: the pseudo-command PLACE completes and puts the sprite at the position given, every other
field of it and every other sprite as before. -/
def Obligations.PlacePutsTheSpriteThere : Prop :=
  ∀ (s : State) (i : Fin 25) (x y z : Byte), x.toNat ≤ 5 → y.toNat ≤ 5 → z.toNat ≤ 5 →
    ∃ t, execAll (place i.val x y z) s = .next t ∧
      cellOf (t.sprite i) = (z.toNat, y.toNat, x.toNat) ∧
      (∀ a, a ∉ [Attr.x, .y, .z] → attrValue (t.sprite i) a = attrValue (s.sprite i) a) ∧
      (∀ j, j ≠ i → t.sprite j = s.sprite j)

/-! ## Every width of the open parameters (00_scope.md rule R6) -/

/-- At every `CLOCK_W` and every `PERIOD`, TICK completes and stamps a class exactly when the true time
since its timestamp, less than 2^`CLOCK_W`, exceeds its period (R6, R173, R175, R177). -/
def Obligations.TickAtEveryClockWidth : Prop :=
  ∀ (cfg : Config) (s : State cfg.clockW) (c : Fin 7) (d : Nat), d < 2 ^ cfg.clockW →
    s.now = s.lastOf c + BitVec.ofNat cfg.clockW d →
    ∃ t, execIn cfg .tick s = .next t ∧
      t.lastOf c = if (cfg.period c).toNat < d then s.now else s.lastOf c

/-- At every `VAL_W`, SET of a recognized name is SET of `VAL mod 2^VAL_W`: the whole value where the
operand has 8 bits or more, its low bits where it has fewer (R6, R102). How a value reaches an operand
of another width than 8 bits is the model's choice (assumption log 15). -/
def Obligations.SetAtEveryOperandWidth : Prop :=
  ∀ (n : Nat) (s : State) (i : Fin 25) (a : Attr) (v : Byte), s.fb.wf = true →
    ∃ w m, execIn { defaultConfig with valW := n } (.set i.val (attrCode a) v) s =
        .next { s with spr := s.spr.set i.val w i.isLt, fb := m } ∧
      Written (s.sprite i) w a (BitVec.ofNat 8 (v.toNat % 2 ^ n)) ∧
      (8 ≤ n → exec (.set i.val (attrCode a) v) s =
        .next { s with spr := s.spr.set i.val w i.isLt, fb := m }) ∧
      (a ∈ [Attr.colour, .x, .y, .visible, .z, .state] → Synced s.fb m (s.sprite i) w) ∧
      (a ∈ [Attr.direction, .move, .wrap, .attack, .defend, .speed] → m = s.fb)

/-- The state after reset at every `CLOCK_W`: each timestamp and every other piece of state is 0, and
the invariant holds (R6, R37, R197). The reset state of the default instance is the one at 32 bits. -/
def Obligations.ResetAtEveryClockWidth : Prop :=
  (∀ clockW : Nat, let s := State.resetAt clockW
    (∀ c, s.lastOf c = 0) ∧ (∀ i, s.sprite i = 0) ∧ (∀ a, s.fb.byteAt a = 0) ∧
    s.layerCounter = 0 ∧ s.mplexCounter = 0 ∧ s.res = 0 ∧
    s.data = false ∧ s.clock = false ∧ s.latch = false ∧ s.layerEn = 0 ∧ Inv s) ∧
  State.reset = State.resetAt 32
end

