-- ==== Sys2Proof/Laws/State.lean ====
section
/-! SUPPORT. One lemma per field per update of the state, each true by unfolding the update once. -/

namespace Sys2Proof.Machine

variable {W : Nat} (s : State W)

/-! ### `setFb` -/

@[simp] theorem State.setFb_spr (m : Memory) : (s.setFb m).spr = s.spr := rfl
@[simp] theorem State.setFb_fb (m : Memory) : (s.setFb m).fb = m := rfl
@[simp] theorem State.setFb_layerCounter (m : Memory) :
    (s.setFb m).layerCounter = s.layerCounter := rfl
@[simp] theorem State.setFb_mplexCounter (m : Memory) :
    (s.setFb m).mplexCounter = s.mplexCounter := rfl
@[simp] theorem State.setFb_last (m : Memory) : (s.setFb m).last = s.last := rfl
@[simp] theorem State.setFb_res (m : Memory) : (s.setFb m).res = s.res := rfl
@[simp] theorem State.setFb_data (m : Memory) : (s.setFb m).data = s.data := rfl
@[simp] theorem State.setFb_clock (m : Memory) : (s.setFb m).clock = s.clock := rfl
@[simp] theorem State.setFb_latch (m : Memory) : (s.setFb m).latch = s.latch := rfl
@[simp] theorem State.setFb_layerEn (m : Memory) : (s.setFb m).layerEn = s.layerEn := rfl
@[simp] theorem State.setFb_inbox (m : Memory) : (s.setFb m).inbox = s.inbox := rfl
@[simp] theorem State.setFb_now (m : Memory) : (s.setFb m).now = s.now := rfl
@[simp] theorem State.setFb_rnd (m : Memory) : (s.setFb m).rnd = s.rnd := rfl
@[simp] theorem State.setFb_events (m : Memory) : (s.setFb m).events = s.events := rfl
@[simp] theorem State.setFb_draws (m : Memory) : (s.setFb m).draws = s.draws := rfl

/-! ### `setRes` -/

@[simp] theorem State.setRes_spr (v : Word) : (s.setRes v).spr = s.spr := rfl
@[simp] theorem State.setRes_fb (v : Word) : (s.setRes v).fb = s.fb := rfl
@[simp] theorem State.setRes_layerCounter (v : Word) :
    (s.setRes v).layerCounter = s.layerCounter := rfl
@[simp] theorem State.setRes_mplexCounter (v : Word) :
    (s.setRes v).mplexCounter = s.mplexCounter := rfl
@[simp] theorem State.setRes_last (v : Word) : (s.setRes v).last = s.last := rfl
@[simp] theorem State.setRes_res (v : Word) : (s.setRes v).res = v := rfl
@[simp] theorem State.setRes_data (v : Word) : (s.setRes v).data = s.data := rfl
@[simp] theorem State.setRes_clock (v : Word) : (s.setRes v).clock = s.clock := rfl
@[simp] theorem State.setRes_latch (v : Word) : (s.setRes v).latch = s.latch := rfl
@[simp] theorem State.setRes_layerEn (v : Word) : (s.setRes v).layerEn = s.layerEn := rfl
@[simp] theorem State.setRes_inbox (v : Word) : (s.setRes v).inbox = s.inbox := rfl
@[simp] theorem State.setRes_now (v : Word) : (s.setRes v).now = s.now := rfl
@[simp] theorem State.setRes_rnd (v : Word) : (s.setRes v).rnd = s.rnd := rfl
@[simp] theorem State.setRes_events (v : Word) : (s.setRes v).events = s.events := rfl
@[simp] theorem State.setRes_draws (v : Word) : (s.setRes v).draws = s.draws := rfl

/-! ### `setSprite` -/

@[simp] theorem State.setSprite_spr (i : Fin 25) (w : Word) :
    (s.setSprite i w).spr = s.spr.set i.val w i.isLt := rfl
@[simp] theorem State.setSprite_fb (i : Fin 25) (w : Word) : (s.setSprite i w).fb = s.fb := rfl
@[simp] theorem State.setSprite_layerCounter (i : Fin 25) (w : Word) :
    (s.setSprite i w).layerCounter = s.layerCounter := rfl
@[simp] theorem State.setSprite_mplexCounter (i : Fin 25) (w : Word) :
    (s.setSprite i w).mplexCounter = s.mplexCounter := rfl
@[simp] theorem State.setSprite_last (i : Fin 25) (w : Word) :
    (s.setSprite i w).last = s.last := rfl
@[simp] theorem State.setSprite_res (i : Fin 25) (w : Word) : (s.setSprite i w).res = s.res := rfl
@[simp] theorem State.setSprite_data (i : Fin 25) (w : Word) :
    (s.setSprite i w).data = s.data := rfl
@[simp] theorem State.setSprite_clock (i : Fin 25) (w : Word) :
    (s.setSprite i w).clock = s.clock := rfl
@[simp] theorem State.setSprite_latch (i : Fin 25) (w : Word) :
    (s.setSprite i w).latch = s.latch := rfl
@[simp] theorem State.setSprite_layerEn (i : Fin 25) (w : Word) :
    (s.setSprite i w).layerEn = s.layerEn := rfl
@[simp] theorem State.setSprite_inbox (i : Fin 25) (w : Word) :
    (s.setSprite i w).inbox = s.inbox := rfl
@[simp] theorem State.setSprite_now (i : Fin 25) (w : Word) : (s.setSprite i w).now = s.now := rfl
@[simp] theorem State.setSprite_rnd (i : Fin 25) (w : Word) : (s.setSprite i w).rnd = s.rnd := rfl
@[simp] theorem State.setSprite_events (i : Fin 25) (w : Word) :
    (s.setSprite i w).events = s.events := rfl
@[simp] theorem State.setSprite_draws (i : Fin 25) (w : Word) :
    (s.setSprite i w).draws = s.draws := rfl

/-! ### `stampLast` -/

@[simp] theorem State.stampLast_spr (el : Fin 7 → Bool) (n : Clock W) :
    (s.stampLast el n).spr = s.spr := rfl
@[simp] theorem State.stampLast_fb (el : Fin 7 → Bool) (n : Clock W) :
    (s.stampLast el n).fb = s.fb := rfl
@[simp] theorem State.stampLast_layerCounter (el : Fin 7 → Bool) (n : Clock W) :
    (s.stampLast el n).layerCounter = s.layerCounter := rfl
@[simp] theorem State.stampLast_mplexCounter (el : Fin 7 → Bool) (n : Clock W) :
    (s.stampLast el n).mplexCounter = s.mplexCounter := rfl
@[simp] theorem State.stampLast_last (el : Fin 7 → Bool) (n : Clock W) :
    (s.stampLast el n).last = Vector.ofFn fun c => if el c then n else s.last.get c := rfl
@[simp] theorem State.stampLast_res (el : Fin 7 → Bool) (n : Clock W) :
    (s.stampLast el n).res = s.res := rfl
@[simp] theorem State.stampLast_data (el : Fin 7 → Bool) (n : Clock W) :
    (s.stampLast el n).data = s.data := rfl
@[simp] theorem State.stampLast_clock (el : Fin 7 → Bool) (n : Clock W) :
    (s.stampLast el n).clock = s.clock := rfl
@[simp] theorem State.stampLast_latch (el : Fin 7 → Bool) (n : Clock W) :
    (s.stampLast el n).latch = s.latch := rfl
@[simp] theorem State.stampLast_layerEn (el : Fin 7 → Bool) (n : Clock W) :
    (s.stampLast el n).layerEn = s.layerEn := rfl
@[simp] theorem State.stampLast_inbox (el : Fin 7 → Bool) (n : Clock W) :
    (s.stampLast el n).inbox = s.inbox := rfl
@[simp] theorem State.stampLast_now (el : Fin 7 → Bool) (n : Clock W) :
    (s.stampLast el n).now = s.now := rfl
@[simp] theorem State.stampLast_rnd (el : Fin 7 → Bool) (n : Clock W) :
    (s.stampLast el n).rnd = s.rnd := rfl
@[simp] theorem State.stampLast_events (el : Fin 7 → Bool) (n : Clock W) :
    (s.stampLast el n).events = s.events := rfl
@[simp] theorem State.stampLast_draws (el : Fin 7 → Bool) (n : Clock W) :
    (s.stampLast el n).draws = s.draws := rfl

/-! ### `setCounters` -/

@[simp] theorem State.setCounters_spr (l : BitVec 3) (p : BitVec 1) :
    (s.setCounters l p).spr = s.spr := rfl
@[simp] theorem State.setCounters_fb (l : BitVec 3) (p : BitVec 1) :
    (s.setCounters l p).fb = s.fb := rfl
@[simp] theorem State.setCounters_layerCounter (l : BitVec 3) (p : BitVec 1) :
    (s.setCounters l p).layerCounter = l := rfl
@[simp] theorem State.setCounters_mplexCounter (l : BitVec 3) (p : BitVec 1) :
    (s.setCounters l p).mplexCounter = p := rfl
@[simp] theorem State.setCounters_last (l : BitVec 3) (p : BitVec 1) :
    (s.setCounters l p).last = s.last := rfl
@[simp] theorem State.setCounters_res (l : BitVec 3) (p : BitVec 1) :
    (s.setCounters l p).res = s.res := rfl
@[simp] theorem State.setCounters_data (l : BitVec 3) (p : BitVec 1) :
    (s.setCounters l p).data = s.data := rfl
@[simp] theorem State.setCounters_clock (l : BitVec 3) (p : BitVec 1) :
    (s.setCounters l p).clock = s.clock := rfl
@[simp] theorem State.setCounters_latch (l : BitVec 3) (p : BitVec 1) :
    (s.setCounters l p).latch = s.latch := rfl
@[simp] theorem State.setCounters_layerEn (l : BitVec 3) (p : BitVec 1) :
    (s.setCounters l p).layerEn = s.layerEn := rfl
@[simp] theorem State.setCounters_inbox (l : BitVec 3) (p : BitVec 1) :
    (s.setCounters l p).inbox = s.inbox := rfl
@[simp] theorem State.setCounters_now (l : BitVec 3) (p : BitVec 1) :
    (s.setCounters l p).now = s.now := rfl
@[simp] theorem State.setCounters_rnd (l : BitVec 3) (p : BitVec 1) :
    (s.setCounters l p).rnd = s.rnd := rfl
@[simp] theorem State.setCounters_events (l : BitVec 3) (p : BitVec 1) :
    (s.setCounters l p).events = s.events := rfl
@[simp] theorem State.setCounters_draws (l : BitVec 3) (p : BitVec 1) :
    (s.setCounters l p).draws = s.draws := rfl

/-! ### `bumpDraws` -/

@[simp] theorem State.bumpDraws_spr : (s.bumpDraws).spr = s.spr := rfl
@[simp] theorem State.bumpDraws_fb : (s.bumpDraws).fb = s.fb := rfl
@[simp] theorem State.bumpDraws_layerCounter : (s.bumpDraws).layerCounter = s.layerCounter := rfl
@[simp] theorem State.bumpDraws_mplexCounter : (s.bumpDraws).mplexCounter = s.mplexCounter := rfl
@[simp] theorem State.bumpDraws_last : (s.bumpDraws).last = s.last := rfl
@[simp] theorem State.bumpDraws_res : (s.bumpDraws).res = s.res := rfl
@[simp] theorem State.bumpDraws_data : (s.bumpDraws).data = s.data := rfl
@[simp] theorem State.bumpDraws_clock : (s.bumpDraws).clock = s.clock := rfl
@[simp] theorem State.bumpDraws_latch : (s.bumpDraws).latch = s.latch := rfl
@[simp] theorem State.bumpDraws_layerEn : (s.bumpDraws).layerEn = s.layerEn := rfl
@[simp] theorem State.bumpDraws_inbox : (s.bumpDraws).inbox = s.inbox := rfl
@[simp] theorem State.bumpDraws_now : (s.bumpDraws).now = s.now := rfl
@[simp] theorem State.bumpDraws_rnd : (s.bumpDraws).rnd = s.rnd := rfl
@[simp] theorem State.bumpDraws_events : (s.bumpDraws).events = s.events := rfl
@[simp] theorem State.bumpDraws_draws : (s.bumpDraws).draws = s.draws + 1 := rfl

/-! ### `present` -/

@[simp] theorem State.present_spr (r : Request W) (rest : List (Request W)) :
    (s.present r rest).spr = s.spr := rfl
@[simp] theorem State.present_fb (r : Request W) (rest : List (Request W)) :
    (s.present r rest).fb = s.fb := rfl
@[simp] theorem State.present_layerCounter (r : Request W) (rest : List (Request W)) :
    (s.present r rest).layerCounter = s.layerCounter := rfl
@[simp] theorem State.present_mplexCounter (r : Request W) (rest : List (Request W)) :
    (s.present r rest).mplexCounter = s.mplexCounter := rfl
@[simp] theorem State.present_last (r : Request W) (rest : List (Request W)) :
    (s.present r rest).last = s.last := rfl
@[simp] theorem State.present_res (r : Request W) (rest : List (Request W)) :
    (s.present r rest).res = s.res := rfl
@[simp] theorem State.present_data (r : Request W) (rest : List (Request W)) :
    (s.present r rest).data = s.data := rfl
@[simp] theorem State.present_clock (r : Request W) (rest : List (Request W)) :
    (s.present r rest).clock = s.clock := rfl
@[simp] theorem State.present_latch (r : Request W) (rest : List (Request W)) :
    (s.present r rest).latch = s.latch := rfl
@[simp] theorem State.present_layerEn (r : Request W) (rest : List (Request W)) :
    (s.present r rest).layerEn = s.layerEn := rfl
@[simp] theorem State.present_inbox (r : Request W) (rest : List (Request W)) :
    (s.present r rest).inbox = rest := rfl
@[simp] theorem State.present_now (r : Request W) (rest : List (Request W)) :
    (s.present r rest).now = r.now := rfl
@[simp] theorem State.present_rnd (r : Request W) (rest : List (Request W)) :
    (s.present r rest).rnd = r.rnd := rfl
@[simp] theorem State.present_events (r : Request W) (rest : List (Request W)) :
    (s.present r rest).events = [] := rfl
@[simp] theorem State.present_draws (r : Request W) (rest : List (Request W)) :
    (s.present r rest).draws = s.draws := rfl

/-! ### `emit`: the line of the event and the event list change, nothing else does -/

@[simp] theorem State.emit_spr (e : WireEvent) : (s.emit e).spr = s.spr := by cases e <;> rfl
@[simp] theorem State.emit_fb (e : WireEvent) : (s.emit e).fb = s.fb := by cases e <;> rfl
@[simp] theorem State.emit_layerCounter (e : WireEvent) : (s.emit e).layerCounter = s.layerCounter := by cases e <;> rfl
@[simp] theorem State.emit_mplexCounter (e : WireEvent) : (s.emit e).mplexCounter = s.mplexCounter := by cases e <;> rfl
@[simp] theorem State.emit_last (e : WireEvent) : (s.emit e).last = s.last := by cases e <;> rfl
@[simp] theorem State.emit_res (e : WireEvent) : (s.emit e).res = s.res := by cases e <;> rfl
@[simp] theorem State.emit_inbox (e : WireEvent) : (s.emit e).inbox = s.inbox := by cases e <;> rfl
@[simp] theorem State.emit_now (e : WireEvent) : (s.emit e).now = s.now := by cases e <;> rfl
@[simp] theorem State.emit_rnd (e : WireEvent) : (s.emit e).rnd = s.rnd := by cases e <;> rfl
@[simp] theorem State.emit_events (e : WireEvent) : (s.emit e).events = s.events ++ [e] := by
  cases e <;> rfl
@[simp] theorem State.emit_draws (e : WireEvent) : (s.emit e).draws = s.draws := by cases e <;> rfl

/-! ### Registers -/

@[simp] theorem State.sprite_setSprite_same (i : Fin 25) (w : Word) :
    (s.setSprite i w).sprite i = w := by
  simp [State.sprite, Vector.get_eq_getElem]

theorem State.sprite_setSprite_other {i j : Fin 25} (h : i ≠ j) (w : Word) :
    (s.setSprite i w).sprite j = s.sprite j := by
  have h' : i.val ≠ j.val := fun e => h (Fin.ext e)
  simp [State.sprite, Vector.get_eq_getElem, h']

@[simp] theorem State.sprite_setFb (m : Memory) (i : Fin 25) :
    (s.setFb m).sprite i = s.sprite i := rfl

@[simp] theorem State.lastOf_stampLast (el : Fin 7 → Bool) (n : Clock W) (c : Fin 7) :
    (s.stampLast el n).lastOf c = if el c then n else s.lastOf c := by
  simp [State.lastOf, Vector.get_eq_getElem]

theorem State.stampLast_of_none {el : Fin 7 → Bool} (h : ∀ c, el c = false) (n : Clock W) :
    s.stampLast el n = s := by
  have : (Vector.ofFn fun c => if el c then n else s.last.get c) = s.last := by
    ext c hc
    simp [h, Vector.get_eq_getElem]
  cases s
  simp_all [State.stampLast]

theorem State.setSprite_self (i : Fin 25) : s.setSprite i (s.sprite i) = s := by
  cases s
  simp [State.setSprite, State.sprite, Vector.get_eq_getElem]

/-! ### The state after reset, at every clock width (R37) -/

@[simp] theorem State.sprite_resetAt (i : Fin 25) : (State.resetAt W).sprite i = 0 :=
  Vector.getElem_replicate i.isLt

@[simp] theorem State.lastOf_resetAt (c : Fin 7) : (State.resetAt W).lastOf c = 0 :=
  Vector.getElem_replicate c.isLt

end Sys2Proof.Machine
end

