-- ==== Sys2Proof/Laws/Memory.lean ====
section
/-! SUPPORT. The frame buffer: read after write, the canonical form, cells, and the cell-set
operation (20_memory.md rules R51 to R56, 42_framebuffer.md rule R141). -/

namespace Sys2Proof.Machine

variable {W : Nat}

/-! ### Bytes -/

@[simp] theorem Memory.byteAt_nil (k : Nat) : Memory.byteAt [] k = 0 := rfl

theorem Memory.byteAt_cons (a : Nat) (b : Byte) (m : Memory) (k : Nat) :
    Memory.byteAt ((a, b) :: m) k = if k = a then b else Memory.byteAt m k := rfl

theorem Memory.wfFrom_cons {lo a : Nat} {b : Byte} {m : Memory} :
    Memory.wfFrom lo ((a, b) :: m) = true ↔
      lo ≤ a ∧ a < 54 ∧ b ≠ 0 ∧ Memory.wfFrom (a + 1) m = true := by
  simp [Memory.wfFrom, Memory.unlisted, and_assoc]

theorem Memory.wfFrom_le {m : Memory} {lo lo' : Nat} (h : Memory.wfFrom lo m = true)
    (hle : lo' ≤ lo) : Memory.wfFrom lo' m = true := by
  cases m with
  | nil => rfl
  | cons e m =>
    obtain ⟨h1, h2, h3, h4⟩ := Memory.wfFrom_cons.1 h
    exact Memory.wfFrom_cons.2 ⟨by omega, h2, h3, h4⟩

theorem Memory.byteAt_below {m : Memory} {lo k : Nat} (h : Memory.wfFrom lo m = true)
    (hk : k < lo) : m.byteAt k = 0 := by
  induction m generalizing lo with
  | nil => rfl
  | cons e m ih =>
    obtain ⟨h1, -, -, h4⟩ := Memory.wfFrom_cons.1 h
    rw [Memory.byteAt_cons, if_neg (by omega)]
    exact ih h4 (by omega)

/-- A byte index outside `FB[0..53]` holds nothing (R50). -/
theorem Memory.byteAt_outside {m : Memory} {lo k : Nat} (h : Memory.wfFrom lo m = true)
    (hk : 54 ≤ k) : m.byteAt k = 0 := by
  induction m generalizing lo with
  | nil => rfl
  | cons e m ih =>
    obtain ⟨-, h2, -, h4⟩ := Memory.wfFrom_cons.1 h
    rw [Memory.byteAt_cons, if_neg (by omega)]
    exact ih h4

/-- Read after write. -/
theorem Memory.byteAt_write {m : Memory} {lo : Nat} (h : Memory.wfFrom lo m = true) (k : Nat)
    (v : Byte) (j : Nat) : (m.write k v).byteAt j = if j = k then v else m.byteAt j := by
  induction m generalizing lo with
  | nil =>
    simp only [Memory.write]
    split <;> simp_all [Memory.byteAt_cons]
  | cons e m ih =>
    obtain ⟨h1, h2, h3, h4⟩ := Memory.wfFrom_cons.1 h
    have hlow : ∀ i, i ≤ e.1 → Memory.byteAt m i = 0 := fun i hi =>
      Memory.byteAt_below h4 (by omega)
    simp only [Memory.write]
    split
    · split
      · subst_vars
        by_cases hj : j = k
        · subst hj
          rw [Memory.byteAt_cons, if_neg (by omega), if_pos rfl, hlow _ (by omega)]
        · rw [if_neg hj]
      · rw [Memory.byteAt_cons]
    · split
      · subst_vars
        split
        · subst_vars
          by_cases hj : j = e.1
          · subst hj; rw [if_pos rfl, hlow _ (le_refl _)]
          · rw [if_neg hj, Memory.byteAt_cons, if_neg hj]
        · rw [Memory.byteAt_cons]
          by_cases hj : j = e.1
          · rw [if_pos hj, if_pos hj]
          · rw [if_neg hj, if_neg hj]; exact (if_neg hj).symm
      · rw [Memory.byteAt_cons, Memory.byteAt_cons, ih h4]
        by_cases hj : j = e.1
        · subst hj; rw [if_pos rfl, if_pos rfl, if_neg (by omega)]
        · rw [if_neg hj, if_neg hj]

/-- A write inside `FB[0..53]` keeps the canonical form. -/
theorem Memory.wfFrom_write {m : Memory} {lo : Nat} (h : Memory.wfFrom lo m = true) {k : Nat}
    (hlo : lo ≤ k) (hk : k < 54) (v : Byte) : Memory.wfFrom lo (m.write k v) = true := by
  induction m generalizing lo with
  | nil =>
    simp only [Memory.write]
    split
    · rfl
    · exact Memory.wfFrom_cons.2 ⟨hlo, hk, ‹_›, rfl⟩
  | cons e m ih =>
    obtain ⟨h1, h2, h3, h4⟩ := Memory.wfFrom_cons.1 h
    simp only [Memory.write]
    split
    · split
      · exact h
      · exact Memory.wfFrom_cons.2
          ⟨hlo, hk, ‹_›, Memory.wfFrom_cons.2 ⟨by omega, h2, h3, h4⟩⟩
    · split
      · split
        · exact Memory.wfFrom_le h4 (by omega)
        · exact Memory.wfFrom_cons.2 ⟨h1, h2, ‹_›, h4⟩
      · exact Memory.wfFrom_cons.2 ⟨h1, h2, h3, ih h4 (by omega)⟩

/-- Equal canonical memories are equal data. -/
theorem Memory.ext_of_wfFrom {m m' : Memory} {lo : Nat} (h : Memory.wfFrom lo m = true)
    (h' : Memory.wfFrom lo m' = true) (heq : ∀ k, m.byteAt k = m'.byteAt k) : m = m' := by
  induction m generalizing lo m' with
  | nil =>
    cases m' with
    | nil => rfl
    | cons e m' =>
      have := heq e.1
      rw [Memory.byteAt_cons, if_pos rfl] at this
      exact absurd this.symm (Memory.wfFrom_cons.1 h').2.2.1
  | cons e m ih =>
    obtain ⟨h1, h2, h3, h4⟩ := Memory.wfFrom_cons.1 h
    cases m' with
    | nil =>
      have := heq e.1
      rw [Memory.byteAt_cons, if_pos rfl] at this
      exact absurd this h3
    | cons e' m' =>
      obtain ⟨h1', h2', h3', h4'⟩ := Memory.wfFrom_cons.1 h'
      have key : e.1 = e'.1 := by
        rcases Nat.lt_trichotomy e.1 e'.1 with hlt | heq' | hlt
        · have := heq e.1
          rw [Memory.byteAt_cons, if_pos rfl, Memory.byteAt_cons, if_neg (by omega),
            Memory.byteAt_below h4' (by omega)] at this
          exact absurd this h3
        · exact heq'
        · have := heq e'.1
          rw [Memory.byteAt_cons, if_neg (by omega), Memory.byteAt_below h4 (by omega),
            Memory.byteAt_cons, if_pos rfl] at this
          exact absurd this.symm h3'
      have hb : e.2 = e'.2 := by
        have := heq e.1
        rwa [Memory.byteAt_cons, if_pos rfl, Memory.byteAt_cons, if_pos key] at this
      have htail : ∀ k, Memory.byteAt m k = Memory.byteAt m' k := by
        intro k
        by_cases hk : k ≤ e.1
        · rw [Memory.byteAt_below h4 (by omega), Memory.byteAt_below h4' (by omega)]
        · have := heq k
          rwa [Memory.byteAt_cons, if_neg (by omega), Memory.byteAt_cons,
            if_neg (by omega)] at this
      rw [ih h4 (key ▸ h4') htail, Prod.ext key hb]

/-! ### Cells -/

theorem cellByte_lt {l r c : Nat} (hl : l ≤ 5) (hr : r ≤ 5) (hc : c ≤ 5) :
    cellByte l r c < 54 := by
  unfold cellByte cellPos; omega

/-- Every cell lies in one byte (R53). -/
theorem cellOff_cases (r c : Nat) :
    cellOff r c = 0 ∨ cellOff r c = 2 ∨ cellOff r c = 4 ∨ cellOff r c = 6 := by
  unfold cellOff; omega

/-- Two cells in one byte have different offsets (R51). -/
theorem cellOff_ne {l r c l' r' c' : Nat} (hr : r ≤ 5) (hc : c ≤ 5) (hr' : r' ≤ 5) (hc' : c' ≤ 5)
    (hne : (l', r', c') ≠ (l, r, c)) (hb : cellByte l' r' c' = cellByte l r c) :
    cellOff r' c' ≠ cellOff r c := by
  intro ho
  apply hne
  unfold cellByte cellPos at hb
  unfold cellOff at ho
  have h1 : l' = l := by omega
  have h2 : r' = r := by omega
  have h3 : c' = c := by omega
  rw [h1, h2, h3]

theorem putCode_same (old : Byte) (c : Colour) {o : Nat}
    (ho : o = 0 ∨ o = 2 ∨ o = 4 ∨ o = 6) : (putCode old o c >>> o).setWidth 2 = c := by
  apply BitVec.eq_of_getLsbD_eq
  intro i hi
  rcases ho with rfl | rfl | rfl | rfl <;>
    interval_cases i <;> simp [putCode]

theorem putCode_other (old : Byte) (c : Colour) {o o' : Nat}
    (ho : o = 0 ∨ o = 2 ∨ o = 4 ∨ o = 6) (ho' : o' = 0 ∨ o' = 2 ∨ o' = 4 ∨ o' = 6)
    (hne : o' ≠ o) : (putCode old o c >>> o').setWidth 2 = (old >>> o').setWidth 2 := by
  apply BitVec.eq_of_getLsbD_eq
  intro i hi
  rcases ho with rfl | rfl | rfl | rfl <;> rcases ho' with rfl | rfl | rfl | rfl <;>
    first
    | exact absurd rfl hne
    | (interval_cases i <;> simp [putCode])

/-- A cell write changes exactly one cell (R56). -/
theorem Memory.cell_writeCell {m : Memory} (h : m.wf = true) {l r c l' r' c' : Nat}
    (hr : r ≤ 5) (hc : c ≤ 5) (hr' : r' ≤ 5) (hc' : c' ≤ 5) (v : Colour) :
    (m.writeCell l r c v).cell l' r' c' =
      if (l', r', c') = (l, r, c) then v else m.cell l' r' c' := by
  unfold Memory.cell Memory.writeCell
  rw [Memory.byteAt_write h]
  split
  · rename_i hb
    split
    · rename_i he
      obtain ⟨rfl, rfl, rfl⟩ : l' = l ∧ r' = r ∧ c' = c := by simpa using he
      exact putCode_same _ _ (cellOff_cases _ _)
    · rename_i he
      rw [putCode_other _ _ (cellOff_cases _ _) (cellOff_cases _ _)
        (cellOff_ne hr hc hr' hc' he hb), hb]
  · rename_i hb
    rw [if_neg]
    rintro he
    obtain ⟨rfl, rfl, rfl⟩ : l' = l ∧ r' = r ∧ c' = c := by simpa using he
    exact hb rfl

theorem Memory.wf_writeCell {m : Memory} (h : m.wf = true) {l r c : Nat} (hl : l ≤ 5)
    (hr : r ≤ 5) (hc : c ≤ 5) (v : Colour) : (m.writeCell l r c v).wf = true :=
  Memory.wfFrom_write h (Nat.zero_le _) (cellByte_lt hl hr hc) _

theorem Memory.byteAt_writeCell_other {m : Memory} (h : m.wf = true) {l r c k : Nat}
    (hk : k ≠ cellByte l r c) (v : Colour) : (m.writeCell l r c v).byteAt k = m.byteAt k := by
  rw [Memory.writeCell, Memory.byteAt_write h, if_neg hk]

/-! ### The cell-set operation (R141) -/

/-- Everything `setCell` can do: it writes the frame buffer and nothing else. -/
theorem State.setCell_eq (s : State W) (l r c : Nat) (v : Colour) :
    s.setCell l r c v =
      s.setFb (if l > 5 ∨ r > 5 ∨ c > 5 then s.fb else s.fb.writeCell l r c v) := by
  unfold State.setCell
  split <;> rfl

theorem State.setCell_wf {s : State W} (h : s.fb.wf = true) (l r c : Nat) (v : Colour) :
    (s.setCell l r c v).fb.wf = true := by
  rw [State.setCell_eq]
  simp only [State.setFb_fb]
  split
  · exact h
  · exact Memory.wf_writeCell h (by omega) (by omega) (by omega) v

/-- A cell after a cell-set operation (R141): only the addressed cell, and only if it exists. -/
theorem State.cell_setCell {s : State W} (h : s.fb.wf = true) {l r c l' r' c' : Nat} (hl' : l' ≤ 5)
    (hr' : r' ≤ 5) (hc' : c' ≤ 5) (v : Colour) :
    (s.setCell l r c v).fb.cell l' r' c' =
      if (l', r', c') = (l, r, c) then v else s.fb.cell l' r' c' := by
  rw [State.setCell_eq]
  simp only [State.setFb_fb]
  split
  · rw [if_neg]
    intro he
    obtain ⟨rfl, rfl, rfl⟩ : l' = l ∧ r' = r ∧ c' = c := by simpa using he
    omega
  · exact Memory.cell_writeCell h (by omega) (by omega) hr' hc' v

/-- A byte outside the addressed cell's byte is unchanged. -/
theorem State.byteAt_setCell_other {s : State W} (h : s.fb.wf = true) {l r c k : Nat}
    (hk : l ≤ 5 → r ≤ 5 → c ≤ 5 → k ≠ cellByte l r c) (v : Colour) :
    (s.setCell l r c v).fb.byteAt k = s.fb.byteAt k := by
  rw [State.setCell_eq]
  simp only [State.setFb_fb]
  split
  · rfl
  · exact Memory.byteAt_writeCell_other h (hk (by omega) (by omega) (by omega)) v

end Sys2Proof.Machine
end

