-- ==== Sys2Proof/Laws/Codec.lean ====
section
/-! SUPPORT. The codec at the spec's default layout: what `field` reads and `put` writes, bit by bit
(40_attribute_codec.md rules R101, R102, R107), against the slices of 10_state.md rule R22. -/

namespace Sys2Proof.Machine

open Sys2Proof.Safety

/-! ### Groups (R23), for any layout -/

theorem getLsbD_grp (w : Word) (g : Fin 4) (k : Nat) :
    (grp w g).getLsbD k = (decide (k < 8) && w.getLsbD (8 * g.val + k)) := by
  simp [grp]

theorem getLsbD_setGrp (w : Word) (g : Fin 4) (b : Byte) (k : Nat) :
    (setGrp w g b).getLsbD k =
      if 8 * g.val ≤ k ∧ k < 8 * g.val + 8 then b.getLsbD (k - 8 * g.val) else w.getLsbD k := by
  have hg := g.isLt
  have hmask : (0xFF#32).getLsbD (k - 8 * g.val) = decide (k - 8 * g.val < 8) := by
    by_cases h : k - 8 * g.val < 8
    · rw [decide_eq_true h]
      generalize k - 8 * g.val = j at h
      interval_cases j <;> rfl
    · rw [decide_eq_false h]
      have : (0xFF#32) = (0xFF#8).setWidth 32 := by decide
      rw [this]
      simp only [BitVec.getLsbD_setWidth]
      rw [BitVec.getLsbD_of_ge _ _ (by omega), Bool.and_false]
  unfold setGrp
  simp only [BitVec.getLsbD_or, BitVec.getLsbD_and, BitVec.getLsbD_not, BitVec.getLsbD_shiftLeft,
    BitVec.getLsbD_setWidth, hmask]
  by_cases hk : k < 32
  · by_cases h1 : 8 * g.val ≤ k
    · by_cases h2 : k < 8 * g.val + 8
      · have : k - 8 * g.val < 8 := by omega
        have h3 : k - 8 * g.val < 32 := by omega
        simp [hk, h1, h2, this, h3, Nat.not_lt.2 h1]
      · have : ¬ k - 8 * g.val < 8 := by omega
        simp [hk, h2, this, BitVec.getLsbD_of_ge b _ (by omega : 8 ≤ k - 8 * g.val)]
    · simp [hk, h1, Nat.lt_of_not_le h1]
  · have h2 : ¬ k < 8 * g.val + 8 := by omega
    simp [hk, h2, BitVec.getLsbD_of_ge w k (by omega)]

/-! ### Reading a field -/

theorem field_default (w : Word) (a : Attr) :
    field defaultConfig w a = (w.extractLsb' (fieldLow a) (fieldWidth a)).setWidth 8 := by
  apply BitVec.eq_of_getLsbD_eq
  intro k hk
  cases a <;> interval_cases k <;>
    simp [field, defaultAttr, grp, fieldLow, fieldWidth]

theorem fieldWidth_le (a : Attr) : fieldWidth a ≤ 4 := by cases a <;> decide

theorem attrValue_lt (w : Word) (a : Attr) : attrValue w a < 2 ^ fieldWidth a :=
  (w.extractLsb' (fieldLow a) (fieldWidth a)).isLt

theorem field_toNat (w : Word) (a : Attr) : (field defaultConfig w a).toNat = attrValue w a := by
  rw [field_default, BitVec.toNat_setWidth, attrValue]
  apply Nat.mod_eq_of_lt
  calc _ < 2 ^ fieldWidth a := BitVec.isLt _
    _ ≤ 2 ^ 8 := Nat.pow_le_pow_right (by decide) (by have := fieldWidth_le a; omega)

theorem coordOf_default (w : Word) (ax : Axis) :
    coordOf defaultConfig w ax = attrValue w (Axis.attr ax) := field_toNat w _

theorem colourOf_default (w : Word) : colourOf defaultConfig w = w.extractLsb' 0 2 := by
  rw [colourOf, field_default]
  apply BitVec.eq_of_getLsbD_eq
  intro k hk
  interval_cases k <;> simp [fieldLow, fieldWidth]

theorem dirOf_default (w : Word) : dirOf defaultConfig w = w.extractLsb' 9 4 := by
  rw [dirOf, field_default]
  apply BitVec.eq_of_getLsbD_eq
  intro k hk
  interval_cases k <;> simp [fieldLow, fieldWidth]

theorem speedOf_default (w : Word) : speedOf defaultConfig w = attrValue w .speed := field_toNat w _

theorem field_eq_one (w : Word) (a : Attr) :
    (field defaultConfig w a == 1) = decide (attrValue w a = 1) := by
  rw [← field_toNat, Bool.eq_iff_iff]
  simp [← BitVec.toNat_inj]

theorem visible_default (w : Word) :
    visible defaultConfig w = decide (attrValue w .visible = 1) := field_eq_one w _

theorem live_default (w : Word) : live defaultConfig w = decide (attrValue w .state = 1) :=
  field_eq_one w _

theorem moves_default (w : Word) : moves defaultConfig w = decide (attrValue w .move = 1) :=
  field_eq_one w _

theorem wraps_default (w : Word) : wraps defaultConfig w = decide (attrValue w .wrap = 1) :=
  field_eq_one w _

theorem lit_default (w : Word) : lit defaultConfig w = litOf w := by
  unfold lit litOf
  rw [visible_default, live_default, colourOf_default]
  by_cases h : attrValue w .visible = 1 <;> simp [h]

/-! ### Writing a field -/

theorem groupEnd_bounds (a : Attr) :
    fieldLow a + fieldWidth a ≤ groupEnd a ∧ groupEnd a ≤ 32 := by
  cases a <;> decide

/-- The default operand of `VAL_W` = 8 bits is the `VAL` field itself (R6, R71). -/
theorem mergeGroup_default (d : AttrDesc) (old v : Byte) :
    mergeGroup d old (setOperand defaultConfig v) = (old &&& ~~~d.mask) ||| (v <<< d.shift) := by
  simp [mergeGroup, setOperand]

/-- At any `VAL_W` a setter merges what is left of the value at that width (R6, R102). -/
theorem mergeGroup_valW (cfg : Config) (d : AttrDesc) (old v : Byte) :
    mergeGroup d old (setOperand cfg v) =
      mergeGroup d old (setOperand defaultConfig (BitVec.ofNat 8 (v.toNat % 2 ^ cfg.valW))) := by
  have h : (setOperand cfg v).setWidth 8 = BitVec.ofNat 8 (v.toNat % 2 ^ cfg.valW) :=
    BitVec.eq_of_toNat_eq (by simp [setOperand])
  rw [mergeGroup_default, mergeGroup, h]

theorem put_valW (n : Nat) (w : Word) (a : Attr) (v : Byte) :
    put { defaultConfig with valW := n } w a v =
      put defaultConfig w a (BitVec.ofNat 8 (v.toNat % 2 ^ n)) :=
  congrArg (setGrp w _) (mergeGroup_valW { defaultConfig with valW := n } _ _ v)

theorem put_default (w : Word) (a : Attr) (v : Byte) :
    put defaultConfig w a v = setGrp w (defaultAttr a).group
      ((grp w (defaultAttr a).group &&& ~~~(defaultAttr a).mask) ||| (v <<< (defaultAttr a).shift)) :=
  congrArg (setGrp w _) (mergeGroup_default _ _ v)

theorem put_written (w : Word) (a : Attr) (v : Byte) :
    Written w (put defaultConfig w a v) a v := by
  intro k
  have hb := groupEnd_bounds a
  by_cases hk : k < 32
  · rw [put_default, getLsbD_setGrp]
    cases a <;> interval_cases k <;>
      simp [grp, defaultAttr, fieldLow, fieldWidth, groupEnd]
  · rw [if_neg (by omega), if_neg (by omega), if_neg (by omega),
      BitVec.getLsbD_of_ge _ k (by omega), BitVec.getLsbD_of_ge w k (by omega)]

end Sys2Proof.Machine

namespace Sys2Proof.Safety

open Sys2Proof.Machine

/-- A write determines the word (R107). -/
theorem Written.unique {w w₁ w₂ : Word} {a : Attr} {v : Byte} (h₁ : Written w w₁ a v)
    (h₂ : Written w w₂ a v) : w₁ = w₂ :=
  BitVec.eq_of_getLsbD_eq fun k _ => (h₁ k).trans (h₂ k).symm

theorem Written.eq_put {w w' : Word} {a : Attr} {v : Byte} (h : Written w w' a v) :
    w' = put defaultConfig w a v := h.unique (put_written w a v)

theorem attrValue_eq_of_bits {w w' : Word} {a b : Attr}
    (hw : fieldWidth a = fieldWidth b)
    (h : ∀ k < fieldWidth a, w.getLsbD (fieldLow a + k) = w'.getLsbD (fieldLow b + k)) :
    attrValue w a = attrValue w' b := by
  unfold attrValue
  apply Nat.eq_of_testBit_eq
  intro k
  simp only [BitVec.testBit_toNat, BitVec.getLsbD_extractLsb', ← hw]
  by_cases hk : k < fieldWidth a
  · simp [hk, h k hk]
  · simp [hk]

/-- "The field itself receives `VAL mod (1 << width)`" (R107). -/
theorem Written.value {w w' : Word} {a : Attr} {v : Byte} (h : Written w w' a v) :
    attrValue w' a = v.toNat % 2 ^ fieldWidth a := by
  unfold attrValue
  apply Nat.eq_of_testBit_eq
  intro k
  simp only [BitVec.testBit_toNat, BitVec.getLsbD_extractLsb', Nat.testBit_mod_two_pow]
  by_cases hk : k < fieldWidth a
  · rw [h]
    rw [if_neg (by omega), if_pos (by omega)]
    simp [hk, BitVec.getLsbD]
  · simp [hk]

/-- Distinct attributes have disjoint slices (R22). -/
theorem fields_disjoint {a b : Attr} (h : a ≠ b) :
    fieldLow b + fieldWidth b ≤ fieldLow a ∨ fieldLow a + fieldWidth a ≤ fieldLow b := by
  revert h; cases a <;> cases b <;> decide

/-- A write of a value inside the width changes no other attribute (R112 (b)). -/
theorem Written.other {w w' : Word} {a b : Attr} {v : Byte} (h : Written w w' a v)
    (hv : InWidth a v) (hab : b ≠ a) : attrValue w' b = attrValue w b := by
  apply attrValue_eq_of_bits rfl
  intro k hk
  have hz : ∀ j, fieldWidth a ≤ j → v.getLsbD j = false := by
    intro j hj
    rw [BitVec.getLsbD, Nat.testBit_eq_false_of_lt]
    exact lt_of_lt_of_le hv (Nat.pow_le_pow_right (by decide) hj)
  rw [h]
  rcases fields_disjoint (Ne.symm hab) with hd | hd
  · rw [if_pos (by omega)]
  · rw [if_neg (by omega), if_neg (by omega), hz _ (by omega)]
    simp

/-- A write never leaves the attribute's group (R107, R112 (b)). -/
theorem Written.outside {w w' : Word} {a : Attr} {v : Byte} (h : Written w w' a v) {k : Nat}
    (hk : k < fieldLow a ∨ groupEnd a ≤ k) : w'.getLsbD k = w.getLsbD k := by
  have := groupEnd_bounds a
  rw [h]
  rcases hk with hk | hk
  · rw [if_pos hk]
  · rw [if_neg (by omega), if_neg (by omega), if_neg (by omega)]

end Sys2Proof.Safety
end

