-- ==== Sys2Proof/Laws/Encoding.lean ====
section
/-! SUPPORT. The three command formats bit by bit (30_encoding.md rules R71 to R73). -/

namespace Sys2Proof

/-- Format S (R71), bit by bit. -/
theorem getLsbD_formatS (op : BitVec 4) (id an : Nat) (v : Byte) (k : Nat) :
    (formatS op id an v).getLsbD k =
      if k < 8 then v.getLsbD k else if k < 19 then false
      else if k < 23 then an.testBit (k - 19)
      else if k < 28 then id.testBit (k - 23)
      else op.getLsbD (k - 28) := by
  change BitVec.getLsbD (w := 4 + 5 + 4 + 11 + 8)
    (op ++ BitVec.ofNat 5 id ++ BitVec.ofNat 4 an ++ 0#11 ++ v) k = _
  simp only [BitVec.getLsbD_append, BitVec.getLsbD_ofNat, Nat.zero_testBit, Bool.and_false]
  by_cases h1 : k < 8
  · simp [h1]
  by_cases h2 : k < 19
  · simp [h1, h2, show k - 8 < 11 by omega]
  have e1 : k - 8 - 11 = k - 19 := by omega
  by_cases h3 : k < 23
  · simp [h1, h2, h3, e1, show ¬ k - 8 < 11 by omega, show k - 19 < 4 by omega]
  have e2 : k - 19 - 4 = k - 23 := by omega
  by_cases h4 : k < 28
  · simp [h1, h2, h3, h4, e1, e2, show ¬ k - 8 < 11 by omega, show ¬ k - 19 < 4 by omega,
      show k - 23 < 5 by omega]
  · have e3 : k - 23 - 5 = k - 28 := by omega
    simp [h1, h2, h3, h4, e1, e2, e3, show ¬ k - 8 < 11 by omega, show ¬ k - 19 < 4 by omega,
      show ¬ k - 23 < 5 by omega]

/-- Format C (R72), bit by bit. -/
theorem getLsbD_formatC (op : BitVec 4) (layer row col : Nat) (c : Colour) (k : Nat) :
    (formatC op layer row col c).getLsbD k =
      if k < 2 then c.getLsbD k else if k < 4 then false
      else if k < 12 then col.testBit (k - 4)
      else if k < 20 then row.testBit (k - 12)
      else if k < 28 then layer.testBit (k - 20)
      else op.getLsbD (k - 28) := by
  change BitVec.getLsbD (w := 4 + 8 + 8 + 8 + 2 + 2)
    (op ++ BitVec.ofNat 8 layer ++ BitVec.ofNat 8 row ++ BitVec.ofNat 8 col ++ 0#2 ++ c) k = _
  simp only [BitVec.getLsbD_append, BitVec.getLsbD_ofNat, Nat.zero_testBit, Bool.and_false]
  by_cases h1 : k < 2
  · simp [h1]
  by_cases h2 : k < 4
  · simp [h1, h2, show k - 2 < 2 by omega]
  have e1 : k - 2 - 2 = k - 4 := by omega
  by_cases h3 : k < 12
  · simp [h1, h2, h3, e1, show ¬ k - 2 < 2 by omega, show k - 4 < 8 by omega]
  have e2 : k - 4 - 8 = k - 12 := by omega
  by_cases h4 : k < 20
  · simp [h1, h2, h3, h4, e1, e2, show ¬ k - 2 < 2 by omega, show ¬ k - 4 < 8 by omega,
      show k - 12 < 8 by omega]
  have e3 : k - 12 - 8 = k - 20 := by omega
  by_cases h5 : k < 28
  · simp [h1, h2, h3, h4, h5, e1, e2, e3, show ¬ k - 2 < 2 by omega, show ¬ k - 4 < 8 by omega,
      show ¬ k - 12 < 8 by omega, show k - 20 < 8 by omega]
  · have e4 : k - 20 - 8 = k - 28 := by omega
    simp [h1, h2, h3, h4, h5, e1, e2, e3, e4, show ¬ k - 2 < 2 by omega,
      show ¬ k - 4 < 8 by omega, show ¬ k - 12 < 8 by omega, show ¬ k - 20 < 8 by omega]

/-! ### The decoder -/

/-- A slice is zero iff its bits are. -/
theorem slice_zero {w : Word} {lo n : Nat} :
    w.extractLsb' lo n = 0 ↔ ∀ k < n, w.getLsbD (lo + k) = false := by
  constructor
  · intro h k hk
    have := congrArg (fun x : BitVec n => x.getLsbD k) h
    simpa [hk] using this
  · intro h
    apply BitVec.eq_of_getLsbD_eq
    intro k hk
    simp [hk, h k hk]

/-- The opcode, bit by bit. -/
theorem op_eq {w : Word} {o : BitVec 4} :
    w.extractLsb' 28 4 = o ↔ ∀ k < 4, w.getLsbD (28 + k) = o.getLsbD k := by
  constructor
  · intro h k hk
    have := congrArg (fun x : BitVec 4 => x.getLsbD k) h
    simpa [hk] using this
  · intro h
    apply BitVec.eq_of_getLsbD_eq
    intro k hk
    simp [hk, h k hk]

/-- A row of the opcode map in terms of its fields (R71 to R74): the opcode, and the slice that must be
zero. -/
theorem row_iff {w mask pat : Word} {o : BitVec 4} {lo n : Nat}
   (hm : ∀ k < 32, mask.getLsbD k = (decide (28 ≤ k) || (decide (lo ≤ k) && decide (k < lo + n))))
   (hn : lo + n ≤ 28)
   (hp : ∀ k < 32, pat.getLsbD k = (decide (28 ≤ k) && o.getLsbD (k - 28))) :
   w &&& mask = pat ↔ w.extractLsb' 28 4 = o ∧ w.extractLsb' lo n = 0 := by
  rw [op_eq, slice_zero]
  constructor
  · intro h
    have hk : ∀ k < 32, (w.getLsbD k && mask.getLsbD k) = pat.getLsbD k := by
      intro k _; rw [← h, BitVec.getLsbD_and]
    refine ⟨fun k hk' => ?_, fun k hk' => ?_⟩
    · have := hk (28 + k) (by omega)
      rw [hm _ (by omega), hp _ (by omega)] at this
      simpa using this
    · have := hk (lo + k) (by omega)
      rw [hm _ (by omega), hp _ (by omega)] at this
      have h1 : ¬ 28 ≤ lo + k := by omega
      simpa [h1, hk'] using this
  · rintro ⟨h1, h2⟩
    apply BitVec.eq_of_getLsbD_eq
    intro k hk
    rw [BitVec.getLsbD_and, hm k hk, hp k hk]
    by_cases h28 : 28 ≤ k
    · have := h1 (k - 28) (by omega)
      rw [show 28 + (k - 28) = k by omega] at this
      simp [h28, this]
    · by_cases hr : lo ≤ k ∧ k < lo + n
      · have := h2 (k - lo) (by omega)
        rw [show lo + (k - lo) = k by omega] at this
        simp [this, h28]
      · have : (decide (lo ≤ k) && decide (k < lo + n)) = false := by
          simp; omega
        rw [this]; simp [h28]

/-- The decoder in terms of fields (R71 to R76): each row asks for its opcode and one zero slice. -/
theorem decode_eq (w : Word) : decode w =
   if w.extractLsb' 28 4 = 1 ∧ w.extractLsb' 0 19 = 0 then .command (.get (idField w) (anField w))
   else if w.extractLsb' 28 4 = 2 ∧ w.extractLsb' 8 11 = 0 then .command (.set (idField w) (anField w) (valField w))
   else if w.extractLsb' 28 4 = 3 ∧ w.extractLsb' 0 23 = 0 then .command (.rndcol (idField w))
   else if w.extractLsb' 28 4 = 4 ∧ w.extractLsb' 0 23 = 0 then .command (.rndpos (idField w))
   else if w.extractLsb' 28 4 = 5 ∧ w.extractLsb' 0 23 = 0 then .command (.rnddir (idField w))
   else if w.extractLsb' 28 4 = 6 ∧ w.extractLsb' 0 23 = 0 then .command (.move (idField w))
   else if w.extractLsb' 28 4 = 7 ∧ w.extractLsb' 2 2 = 0 then .command (.setcell (layerField w) (rowField w) (colField w) (colourField w))
   else if w.extractLsb' 28 4 = 8 ∧ w.extractLsb' 0 28 = 0 then .command .refresh
   else if w.extractLsb' 28 4 = 9 ∧ w.extractLsb' 0 28 = 0 then .command .tick
   else .reserved := by
  have r1 : w &&& 0xF007FFFF#32 = 0x10000000#32 ↔ w.extractLsb' 28 4 = 1 ∧ w.extractLsb' 0 19 = 0 :=
    row_iff (by decide) (by decide) (by decide)
  have r2 : w &&& 0xF007FF00#32 = 0x20000000#32 ↔ w.extractLsb' 28 4 = 2 ∧ w.extractLsb' 8 11 = 0 :=
    row_iff (by decide) (by decide) (by decide)
  have r3 : w &&& 0xF07FFFFF#32 = 0x30000000#32 ↔ w.extractLsb' 28 4 = 3 ∧ w.extractLsb' 0 23 = 0 :=
    row_iff (by decide) (by decide) (by decide)
  have r4 : w &&& 0xF07FFFFF#32 = 0x40000000#32 ↔ w.extractLsb' 28 4 = 4 ∧ w.extractLsb' 0 23 = 0 :=
    row_iff (by decide) (by decide) (by decide)
  have r5 : w &&& 0xF07FFFFF#32 = 0x50000000#32 ↔ w.extractLsb' 28 4 = 5 ∧ w.extractLsb' 0 23 = 0 :=
    row_iff (by decide) (by decide) (by decide)
  have r6 : w &&& 0xF07FFFFF#32 = 0x60000000#32 ↔ w.extractLsb' 28 4 = 6 ∧ w.extractLsb' 0 23 = 0 :=
    row_iff (by decide) (by decide) (by decide)
  have r7 : w &&& 0xF000000C#32 = 0x70000000#32 ↔ w.extractLsb' 28 4 = 7 ∧ w.extractLsb' 2 2 = 0 :=
    row_iff (by decide) (by decide) (by decide)
  have r8 : w &&& 0xFFFFFFFF#32 = 0x80000000#32 ↔ w.extractLsb' 28 4 = 8 ∧ w.extractLsb' 0 28 = 0 :=
    row_iff (by decide) (by decide) (by decide)
  have r9 : w &&& 0xFFFFFFFF#32 = 0x90000000#32 ↔ w.extractLsb' 28 4 = 9 ∧ w.extractLsb' 0 28 = 0 :=
    row_iff (by decide) (by decide) (by decide)
  simp only [decode, opRows, decodeWith, ← r1, ← r2, ← r3, ← r4, ← r5, ← r6, ← r7, ← r8, ← r9]
  rfl

end Sys2Proof
end

