-- ==== Sys2Proof/Laws/PerInstr.lean ====
section
/-! SUPPORT. Statements about every instruction as syntax, one lemma per constructor. -/

namespace Sys2Proof.Laws.EncodeOpcode

theorem opcode_formatS (op : BitVec 4) (id an : Nat) (v : Byte) :
    (formatS op id an v).extractLsb' 28 4 = op := by
  apply BitVec.eq_of_getLsbD_eq
  intro k hk
  rw [BitVec.getLsbD_extractLsb', getLsbD_formatS]
  interval_cases k <;> simp

theorem opcode_formatC (op : BitVec 4) (l r c : Nat) (v : Colour) :
    (formatC op l r c v).extractLsb' 28 4 = op := by
  apply BitVec.eq_of_getLsbD_eq
  intro k hk
  rw [BitVec.getLsbD_extractLsb', getLsbD_formatC]
  interval_cases k <;> simp

theorem opcode_formatZ (op : BitVec 4) : (formatZ op).extractLsb' 28 4 = op := by
  revert op
  decide

/-- Bits [31:28] of an instruction's word are its opcode (30_encoding.md rule R70). -/
def Statement (i : Instr) : Prop := (encode i).extractLsb' 28 4 = i.opcode

theorem get (id an : Nat) : Statement (.get id an) := opcode_formatS _ _ _ _
theorem set (id an : Nat) (val : Byte) : Statement (.set id an val) := opcode_formatS _ _ _ _
theorem rndcol (id : Nat) : Statement (.rndcol id) := opcode_formatS _ _ _ _
theorem rndpos (id : Nat) : Statement (.rndpos id) := opcode_formatS _ _ _ _
theorem rnddir (id : Nat) : Statement (.rnddir id) := opcode_formatS _ _ _ _
theorem move (id : Nat) : Statement (.move id) := opcode_formatS _ _ _ _
theorem setcell (layer row col : Nat) (colour : Colour) :
    Statement (.setcell layer row col colour) := opcode_formatC _ _ _ _ _
theorem refresh : Statement .refresh := opcode_formatZ _
theorem tick : Statement .tick := opcode_formatZ _

end Sys2Proof.Laws.EncodeOpcode
end

