-- ==== Sys2Proof/Laws/Sync.lean ====
section
/-! SUPPORT. The synchronised write and everything built from it: what one attribute write, one step
of a sprite and one TICK can do (40_attribute_codec.md rule R104, 44_movement.md rules R171 to
R175). -/

namespace Sys2Proof.Machine

variable {W : Nat}

open Sys2Proof.Safety

/-! ### Cells read from the 432-bit value (R52) -/

theorem cellCode_eq (m : Memory) (l r c : Nat) : cellCode m (l, r, c) = m.cell l r c := by
  have h1 : (72 * l + 12 * r + 2 * c + 1) / 8 = (72 * l + 12 * r + 2 * c) / 8 := by omega
  have h2 : (72 * l + 12 * r + 2 * c) % 8 = cellOff r c := by unfold cellOff; omega
  have h3 : (72 * l + 12 * r + 2 * c + 1) % 8 = cellOff r c + 1 := by unfold cellOff; omega
  unfold cellCode bufferBit Memory.cell cellByte cellPos
  simp only [h1, h2, h3]
  generalize Memory.byteAt m ((72 * l + 12 * r + 2 * c) / 8) = b
  generalize cellOff r c = o
  have e : (b >>> o).setWidth 2 =
      BitVec.ofBool (b.getLsbD (o + 1)) ++ BitVec.ofBool (b.getLsbD o) := by
    have h0 : b.getLsbD o = ((b >>> o).setWidth 2).getLsbD 0 := by simp
    have h1 : b.getLsbD (o + 1) = ((b >>> o).setWidth 2).getLsbD 1 := by simp
    rw [h0, h1]
    generalize (b >>> o).setWidth 2 = x
    revert x
    decide
  exact e.symm

theorem byteOf_eq (l r c : Nat) : byteOf (l, r, c) = cellByte l r c := rfl

/-! ### The set operand's width (R6, R102) -/

/-- At any `VAL_W` one attribute write is the default instance's write of the value cut to that
width. -/
theorem writeAttr_valW (n : Nat) (i : Fin 25) (a : Attr) (v : Byte) (s : State W) :
    writeAttr { defaultConfig with valW := n } i a v s =
      writeAttr defaultConfig i a (BitVec.ofNat 8 (v.toNat % 2 ^ n)) s := by
  have h : ∀ u : State W, plainWrite { defaultConfig with valW := n } i a v u =
      plainWrite defaultConfig i a (BitVec.ofNat 8 (v.toNat % 2 ^ n)) u :=
    fun u => congrArg (u.setSprite i) (put_valW n _ a v)
  rw [writeAttr, writeAttr, syncWrite, syncWrite, h, h]
  rfl

/-! ### One write through the codec, for any configuration -/

/-- `s` and `t` differ at most in sprite `i` and the frame buffer, whose canonical form is kept. -/
def OnlySprite (i : Fin 25) (s t : State W) : Prop :=
  ∃ w m, t = (s.setSprite i w).setFb m ∧ (s.fb.wf = true → m.wf = true)

theorem OnlySprite.refl (i : Fin 25) (s : State W) : OnlySprite i s s :=
  ⟨s.sprite i, s.fb, by rw [State.setSprite_self]; rfl, id⟩

theorem OnlySprite.trans {i : Fin 25} {s t u : State W} (h₁ : OnlySprite i s t)
    (h₂ : OnlySprite i t u) : OnlySprite i s u := by
  obtain ⟨w, m, rfl, hm⟩ := h₁
  obtain ⟨w', m', rfl, hm'⟩ := h₂
  refine ⟨w', m', ?_, fun h => hm' (hm h)⟩
  simp [State.setFb, State.setSprite, Vector.set_set]

theorem OnlySprite.wf {i : Fin 25} {s t : State W} (h : OnlySprite i s t) (hs : s.fb.wf = true) :
    t.fb.wf = true := by
  obtain ⟨w, m, rfl, hm⟩ := h
  exact hm hs

theorem OnlySprite.sprite_other {i j : Fin 25} {s t : State W} (h : OnlySprite i s t) (hij : i ≠ j) :
    t.sprite j = s.sprite j := by
  obtain ⟨w, m, rfl, -⟩ := h
  exact State.sprite_setSprite_other s hij w

theorem setCellOf_eq (cfg : Config) (w : Word) (c : Colour) (s : State W) :
    ∃ m, setCellOf cfg w c s = s.setFb m ∧ (s.fb.wf = true → m.wf = true) :=
  ⟨_, State.setCell_eq s _ _ _ c, fun h => by
    have := State.setCell_wf h (coordOf cfg w cfg.axisMap.layer) (coordOf cfg w cfg.axisMap.row)
      (coordOf cfg w cfg.axisMap.column) c
    rwa [State.setCell_eq] at this⟩

theorem plainWrite_only (cfg : Config) (i : Fin 25) (a : Attr) (v : Byte) (s : State W) :
    OnlySprite i s (plainWrite cfg i a v s) := ⟨_, s.fb, rfl, id⟩

@[simp] theorem plainWrite_sprite (cfg : Config) (i : Fin 25) (a : Attr) (v : Byte) (s : State W) :
    (plainWrite cfg i a v s).sprite i = put cfg (s.sprite i) a v :=
  State.sprite_setSprite_same _ _ _

/-- Everything a synchronised write can do: the sprite's word takes the value `put` gives and the
frame buffer changes. -/
theorem syncWrite_eq (cfg : Config) (i : Fin 25) (a : Attr) (v : Byte) (s : State W) :
    ∃ m, syncWrite cfg i a v s = (s.setSprite i (put cfg (s.sprite i) a v)).setFb m ∧
      (s.fb.wf = true → m.wf = true) := by
  obtain ⟨m₁, h₁, hm₁⟩ := setCellOf_eq cfg (s.sprite i) 0 s
  have hw : (plainWrite cfg i a v (s.setFb m₁)).sprite i = put cfg (s.sprite i) a v := by simp
  obtain ⟨m₂, h₂, hm₂⟩ := setCellOf_eq cfg (put cfg (s.sprite i) a v)
    (lit cfg (put cfg (s.sprite i) a v)) (plainWrite cfg i a v (s.setFb m₁))
  refine ⟨m₂, ?_, fun h => hm₂ (hm₁ h)⟩
  unfold syncWrite
  simp only [h₁, hw, h₂]
  rfl

theorem syncWrite_only (cfg : Config) (i : Fin 25) (a : Attr) (v : Byte) (s : State W) :
    OnlySprite i s (syncWrite cfg i a v s) :=
  let ⟨m, h, hm⟩ := syncWrite_eq cfg i a v s
  ⟨_, m, h, hm⟩

@[simp] theorem syncWrite_sprite (cfg : Config) (i : Fin 25) (a : Attr) (v : Byte) (s : State W) :
    (syncWrite cfg i a v s).sprite i = put cfg (s.sprite i) a v := by
  obtain ⟨m, h, -⟩ := syncWrite_eq cfg i a v s
  rw [h]
  simp

theorem writeAttr_only (cfg : Config) (i : Fin 25) (a : Attr) (v : Byte) (s : State W) :
    OnlySprite i s (writeAttr cfg i a v s) := by
  unfold writeAttr
  split
  · exact syncWrite_only cfg i a v s
  · exact plainWrite_only cfg i a v s

@[simp] theorem writeAttr_sprite (cfg : Config) (i : Fin 25) (a : Attr) (v : Byte) (s : State W) :
    (writeAttr cfg i a v s).sprite i = put cfg (s.sprite i) a v := by
  unfold writeAttr
  split <;> simp

theorem moveAxis_only (cfg : Config) (i : Fin 25) (ax : Axis) (d : Delta) (wr : Bool) (s : State W) :
    OnlySprite i s (moveAxis cfg i ax d wr s) := by
  unfold moveAxis
  split
  · exact syncWrite_only cfg i _ _ s
  · exact OnlySprite.refl i s

theorem moveStep_only (cfg : Config) (i : Fin 25) (s : State W) :
    OnlySprite i s (moveStep cfg i s) :=
  ((moveAxis_only cfg i .x _ _ s).trans (moveAxis_only cfg i .y _ _ _)).trans
    (moveAxis_only cfg i .z _ _ _)

/-! ### The frame buffer after a synchronised write, at the default layout (R104) -/

theorem setCellOf_default (w : Word) (c : Colour) (s : State W) :
    setCellOf defaultConfig w c s =
      s.setCell (attrValue w .z) (attrValue w .y) (attrValue w .x) c := by
  unfold setCellOf
  simp only [coordOf_default]
  rfl

theorem syncWrite_synced {s : State W} (h : s.fb.wf = true) (i : Fin 25) (a : Attr) (v : Byte) :
    Synced s.fb (syncWrite defaultConfig i a v s).fb (s.sprite i)
      (put defaultConfig (s.sprite i) a v) := by
  have hw : ∀ m, (plainWrite defaultConfig i a v (s.setFb m)).sprite i =
      put defaultConfig (s.sprite i) a v := by simp
  set w := s.sprite i
  set w' := put defaultConfig w a v
  have key : (syncWrite defaultConfig i a v s).fb =
      ((s.setCell (attrValue w .z) (attrValue w .y) (attrValue w .x) 0).setCell
        (attrValue w' .z) (attrValue w' .y) (attrValue w' .x) (litOf w')).fb := by
    unfold syncWrite
    simp only [setCellOf_default]
    rw [State.setCell_eq s, hw, lit_default]
    simp only [State.setCell_eq]
    rfl
  have h₁ := State.setCell_wf h (attrValue w .z) (attrValue w .y) (attrValue w .x) 0
  rw [key]
  refine ⟨?_, ?_⟩
  · rintro ⟨l, r, c⟩ ⟨hl, hr, hc⟩
    simp only [cellCode_eq]
    rw [State.cell_setCell h₁ hl hr hc, State.cell_setCell h hl hr hc]
    rfl
  · intro k h1 h2
    have h2' : attrValue w' .z ≤ 5 → attrValue w' .y ≤ 5 → attrValue w' .x ≤ 5 →
        k ≠ cellByte (attrValue w' .z) (attrValue w' .y) (attrValue w' .x) :=
      fun a b c => h2 ⟨a, b, c⟩
    have h1' : attrValue w .z ≤ 5 → attrValue w .y ≤ 5 → attrValue w .x ≤ 5 →
        k ≠ cellByte (attrValue w .z) (attrValue w .y) (attrValue w .x) :=
      fun a b c => h1 ⟨a, b, c⟩
    rw [State.byteAt_setCell_other h₁ h2', State.byteAt_setCell_other h h1']

/-- Only the cell of the old word and the cell of the new word can change. -/
theorem synced_cell_other {m m' : Memory} {w w' : Word} (h : Synced m m' w w')
    {c : Nat × Nat × Nat} (hc : InCube c) (h₁ : c ≠ cellOf w) (h₂ : c ≠ cellOf w') :
    cellCode m' c = cellCode m c := by
  rw [h.cells c hc, if_neg h₂, if_neg h₁]

/-! ### One axis (R171) -/

theorem axisStep_cases {v : Nat} (hv : v ≤ 7) (d : Delta) (wr : Bool) :
    (axisStep v d wr = none ∧ stepped v d wr = v) ∨
      (axisStep v d wr = some (stepped v d wr) ∧ stepped v d wr ≤ 5) := by
  cases d <;> cases wr <;> interval_cases v <;> decide

/-- An axis that would stay is not written (R171, R172). -/
theorem axisStep_same {v : Nat} (hv : v ≤ 7) {d : Delta} {wr : Bool} (h : stepped v d wr = v) :
    axisStep v d wr = none := by
  revert h
  cases d <;> cases wr <;> interval_cases v <;> decide

theorem attrValue_axis_le (w : Word) (ax : Axis) : attrValue w (Axis.attr ax) ≤ 7 := by
  have := attrValue_lt w (Axis.attr ax)
  cases ax <;> simp_all [Axis.attr, fieldWidth] <;> omega

/-- The word `w` with one coordinate replaced by `n`. -/
def atCoord (w : Word) (ax : Axis) (n : Nat) : Word :=
  put defaultConfig w (Axis.attr ax) (BitVec.ofNat 8 n)

theorem inWidth_coord {n : Nat} (h : n ≤ 7) (ax : Axis) :
    InWidth (Axis.attr ax) (BitVec.ofNat 8 n) := by
  have : n % 256 = n := Nat.mod_eq_of_lt (by omega)
  cases ax <;> simp [InWidth, Axis.attr, fieldWidth, this] <;> omega

theorem attrValue_atCoord_same (w : Word) (ax : Axis) {n : Nat} (h : n ≤ 7) :
    attrValue (atCoord w ax n) (Axis.attr ax) = n := by
  rw [atCoord, (put_written w _ _).value]
  have hw := inWidth_coord h ax
  rw [Nat.mod_eq_of_lt hw, BitVec.toNat_ofNat, Nat.mod_eq_of_lt (by omega)]

theorem attrValue_atCoord_other (w : Word) (ax : Axis) {n : Nat} (h : n ≤ 7) {a : Attr}
    (ha : a ≠ Axis.attr ax) : attrValue (atCoord w ax n) a = attrValue w a :=
  (put_written w _ _).other (inWidth_coord h ax) ha

/-- A coordinate written with the value it holds leaves the word unchanged. -/
theorem atCoord_self (w : Word) (ax : Axis) : atCoord w ax (attrValue w (Axis.attr ax)) = w := by
  have hle := attrValue_axis_le w ax
  have hlt := attrValue_lt w (Axis.attr ax)
  apply BitVec.eq_of_getLsbD_eq
  intro k _
  rw [atCoord, put_written]
  have hbit : ∀ j, (BitVec.ofNat 8 (attrValue w (Axis.attr ax))).getLsbD j =
      (decide (j < fieldWidth (Axis.attr ax)) && w.getLsbD (fieldLow (Axis.attr ax) + j)) := by
    intro j
    have : (BitVec.ofNat 8 (attrValue w (Axis.attr ax))).toNat = attrValue w (Axis.attr ax) := by
      rw [BitVec.toNat_ofNat, Nat.mod_eq_of_lt (by omega)]
    rw [BitVec.getLsbD, this, attrValue, BitVec.testBit_toNat, BitVec.getLsbD_extractLsb']
  split
  · rfl
  · split
    · rw [hbit, decide_eq_true (by omega), Bool.true_and]
      congr 1
      omega
    · split
      · rw [hbit, decide_eq_false (by omega)]
        simp
      · rfl

/-- Everything one axis of a step can do (R172): nothing where the coordinate stays, otherwise one
synchronised write of the new coordinate. Either way the sprite's word is `atCoord`. -/
theorem moveAxis_cases (i : Fin 25) (ax : Axis) (d : Delta) (wr : Bool) (s : State W) :
    let n := stepped (attrValue (s.sprite i) (Axis.attr ax)) d wr
    (moveAxis defaultConfig i ax d wr s = s ∧ n = attrValue (s.sprite i) (Axis.attr ax)) ∨
      (moveAxis defaultConfig i ax d wr s =
        syncWrite defaultConfig i (Axis.attr ax) (BitVec.ofNat 8 n) s ∧ n ≤ 5) := by
  intro n
  unfold moveAxis
  rw [coordOf_default]
  rcases axisStep_cases (attrValue_axis_le (s.sprite i) ax) d wr with ⟨h, h'⟩ | ⟨h, h'⟩
  · exact .inl ⟨by rw [h], h'⟩
  · exact .inr ⟨by rw [h], h'⟩

theorem moveAxis_same {i : Fin 25} {ax : Axis} {d : Delta} {wr : Bool} {s : State W}
    (h : stepped (attrValue (s.sprite i) (Axis.attr ax)) d wr =
      attrValue (s.sprite i) (Axis.attr ax)) : moveAxis defaultConfig i ax d wr s = s := by
  unfold moveAxis
  rw [coordOf_default, axisStep_same (attrValue_axis_le _ _) h]

theorem stepped_le {v : Nat} (hv : v ≤ 7) (d : Delta) (wr : Bool) : stepped v d wr ≤ 7 := by
  cases d <;> cases wr <;> interval_cases v <;> decide

theorem stepped_le_five {v : Nat} (hv : v ≤ 5) (d : Delta) (wr : Bool) : stepped v d wr ≤ 5 := by
  cases d <;> cases wr <;> interval_cases v <;> decide

@[simp] theorem moveAxis_sprite (i : Fin 25) (ax : Axis) (d : Delta) (wr : Bool) (s : State W) :
    (moveAxis defaultConfig i ax d wr s).sprite i =
      atCoord (s.sprite i) ax (stepped (attrValue (s.sprite i) (Axis.attr ax)) d wr) := by
  rcases moveAxis_cases i ax d wr s with ⟨h, h'⟩ | ⟨h, -⟩
  · rw [h, h', atCoord_self]
  · rw [h, syncWrite_sprite, atCoord]

/-- A cell that is neither the old nor the new one of the axis is unchanged. -/
theorem moveAxis_cell_other {s : State W} (hs : s.fb.wf = true) (i : Fin 25) (ax : Axis) (d : Delta)
    (wr : Bool) {c : Nat × Nat × Nat} (hc : InCube c) (h₁ : c ≠ cellOf (s.sprite i))
    (h₂ : c ≠ cellOf ((moveAxis defaultConfig i ax d wr s).sprite i)) :
    cellCode (moveAxis defaultConfig i ax d wr s).fb c = cellCode s.fb c := by
  rcases moveAxis_cases i ax d wr s with ⟨h, -⟩ | ⟨h, -⟩
  · rw [h]
  · rw [h, syncWrite_sprite] at h₂
    rw [h]
    exact synced_cell_other (syncWrite_synced hs i _ _) hc h₁ h₂

/-- A byte that holds neither of the two cells is unchanged. -/
theorem moveAxis_byte_other {s : State W} (hs : s.fb.wf = true) (i : Fin 25) (ax : Axis) (d : Delta)
    (wr : Bool) {k : Nat} (h₁ : InCube (cellOf (s.sprite i)) → k ≠ byteOf (cellOf (s.sprite i)))
    (h₂ : InCube (cellOf ((moveAxis defaultConfig i ax d wr s).sprite i)) →
      k ≠ byteOf (cellOf ((moveAxis defaultConfig i ax d wr s).sprite i))) :
    (moveAxis defaultConfig i ax d wr s).fb.byteAt k = s.fb.byteAt k := by
  rcases moveAxis_cases i ax d wr s with ⟨h, -⟩ | ⟨h, -⟩
  · rw [h]
  · rw [h, syncWrite_sprite] at h₂
    rw [h]
    exact (syncWrite_synced hs i _ _).bytes k h₁ h₂

/-! ### One step of one sprite (R172) -/

/-- The word of a sprite after one step, coordinate by coordinate. -/
def stepWord (w : Word) : Word :=
  atCoord (atCoord (atCoord w .x (steppedX w)) .y (steppedY w)) .z (steppedZ w)

theorem attrValue_le_seven (w : Word) (ax : Axis) (d : Delta) (wr : Bool) :
    stepped (attrValue w (Axis.attr ax)) d wr ≤ 7 := stepped_le (attrValue_axis_le w ax) d wr

theorem steppedX_le (w : Word) : steppedX w ≤ 7 := attrValue_le_seven w .x _ _
theorem steppedY_le (w : Word) : steppedY w ≤ 7 := attrValue_le_seven w .y _ _
theorem steppedZ_le (w : Word) : steppedZ w ≤ 7 := attrValue_le_seven w .z _ _

/-- A sprite's word after a step depends on its word before the step alone. -/
theorem moveStep_sprite (i : Fin 25) (s : State W) :
    (moveStep defaultConfig i s).sprite i = stepWord (s.sprite i) := by
  unfold moveStep
  simp only [moveAxis_sprite, dirOf_default, wraps_default, Axis.attr]
  have hx := steppedX_le (s.sprite i)
  have hy := steppedY_le (s.sprite i)
  have ex : stepped (attrValue (s.sprite i) .x)
      (defaultConfig.dirTab ((s.sprite i).extractLsb' 9 4)).dx
      (decide (attrValue (s.sprite i) .wrap = 1)) = steppedX (s.sprite i) := rfl
  have ey : stepped (attrValue (s.sprite i) .y)
      (defaultConfig.dirTab ((s.sprite i).extractLsb' 9 4)).dy
      (decide (attrValue (s.sprite i) .wrap = 1)) = steppedY (s.sprite i) := rfl
  rw [ex, attrValue_atCoord_other _ .x hx (by decide), ey,
    attrValue_atCoord_other _ .y hy (by decide), attrValue_atCoord_other _ .x hx (by decide)]
  rfl

theorem attrValue_stepWord_x (w : Word) : attrValue (stepWord w) .x = steppedX w := by
  rw [stepWord, attrValue_atCoord_other _ .z (steppedZ_le w) (by decide),
    attrValue_atCoord_other _ .y (steppedY_le w) (by decide)]
  exact attrValue_atCoord_same _ .x (steppedX_le w)

theorem attrValue_stepWord_y (w : Word) : attrValue (stepWord w) .y = steppedY w := by
  rw [stepWord, attrValue_atCoord_other _ .z (steppedZ_le w) (by decide)]
  exact attrValue_atCoord_same _ .y (steppedY_le w)

theorem attrValue_stepWord_z (w : Word) : attrValue (stepWord w) .z = steppedZ w :=
  attrValue_atCoord_same _ .z (steppedZ_le w)

/-- A step changes the three coordinates only (R172). -/
theorem attrValue_stepWord_other (w : Word) {a : Attr} (hx : a ≠ .x) (hy : a ≠ .y) (hz : a ≠ .z) :
    attrValue (stepWord w) a = attrValue w a := by
  rw [stepWord, attrValue_atCoord_other _ .z (steppedZ_le w) hz,
    attrValue_atCoord_other _ .y (steppedY_le w) hy,
    attrValue_atCoord_other _ .x (steppedX_le w) hx]

/-! ### Routes (R216) -/

theorem synced_untouched {m m' : Memory} {w w' : Word} (h : Synced m m' w w') :
    Untouched m m' [cellOf w, cellOf w'] where
  otherCells c hc hne := by
    simp only [List.mem_cons, List.not_mem_nil, or_false, not_or] at hne
    exact synced_cell_other h hc hne.1 hne.2
  otherBytes k hk := h.bytes k (hk _ (by simp)) (hk _ (by simp))

theorem untouched_refl (m : Memory) (cells : List (Nat × Nat × Nat)) : Untouched m m cells :=
  ⟨fun _ _ _ => rfl, fun _ _ => rfl⟩

theorem untouched_trans {m m' m'' : Memory} {cells : List (Nat × Nat × Nat)}
    (h₁ : Untouched m m' cells) (h₂ : Untouched m' m'' cells) : Untouched m m'' cells :=
  ⟨fun c hc hn => (h₂.otherCells c hc hn).trans (h₁.otherCells c hc hn),
    fun k hk => (h₂.otherBytes k hk).trans (h₁.otherBytes k hk)⟩

theorem untouched_mono {m m' : Memory} {cells cells' : List (Nat × Nat × Nat)}
    (h : Untouched m m' cells) (hsub : ∀ c ∈ cells, c ∈ cells') : Untouched m m' cells' :=
  ⟨fun c hc hn => h.otherCells c hc (fun hm => hn (hsub c hm)),
    fun k hk => h.otherBytes k (fun c hm => hk c (hsub c hm))⟩

theorem travelled_first {m m' : Memory} {w w' : Word} {cells : List (Nat × Nat × Nat)}
    (h : Synced m m' w w') (hc : ∀ c ∈ cells, c = cellOf w ∨ c = cellOf w') :
    Travelled m' cells w' where
  final hi := by rw [h.cells _ hi, if_pos rfl]
  cleared c hm hi hne := by
    rcases hc c hm with rfl | rfl
    · rw [h.cells _ hi, if_neg hne, if_pos rfl]
    · exact absurd rfl hne

theorem travelled_next {m m' : Memory} {w w' : Word} {cells cells' : List (Nat × Nat × Nat)}
    (ht : Travelled m cells w) (h : Synced m m' w w')
    (hc : ∀ c ∈ cells', c ∈ cells ∨ c = cellOf w') : Travelled m' cells' w' where
  final hi := by rw [h.cells _ hi, if_pos rfl]
  cleared c hm hi hne := by
    rw [h.cells _ hi, if_neg hne]
    split
    · rfl
    · rcases hc c hm with hm | rfl
      · exact ht.cleared c hm hi ‹_›
      · exact absurd rfl hne

/-- The three axes of a step, as states: each axis either leaves everything alone or is one
synchronised write, and the words along the way stand on the path's cells. -/
theorem moveStep_chain (i : Fin 25) (s : State W) :
    ∃ s₁ s₂ s₃, moveStep defaultConfig i s = s₃ ∧
      s₁ = moveAxis defaultConfig i .x (deltasOf (s.sprite i)).dx (wrapOf (s.sprite i)) s ∧
      s₂ = moveAxis defaultConfig i .y (deltasOf (s.sprite i)).dy (wrapOf (s.sprite i)) s₁ ∧
      s₃ = moveAxis defaultConfig i .z (deltasOf (s.sprite i)).dz (wrapOf (s.sprite i)) s₂ ∧
      path (s.sprite i) =
        [cellOf (s.sprite i), cellOf (s₁.sprite i), cellOf (s₂.sprite i), cellOf (s₃.sprite i)] ∧
      attrValue (s₁.sprite i) .y = attrValue (s.sprite i) .y ∧
      attrValue (s₂.sprite i) .z = attrValue (s.sprite i) .z := by
  set w := s.sprite i with hw
  refine ⟨_, _, _, ?_, rfl, rfl, rfl, ?_, ?_, ?_⟩
  · unfold moveStep
    simp only [dirOf_default, wraps_default]
    rfl
  all_goals
    simp only [moveAxis_sprite, Axis.attr, ← hw]
    have hx : stepped (attrValue w .x) (deltasOf w).dx (wrapOf w) ≤ 7 := steppedX_le w
    have hy : stepped (attrValue w .y) (deltasOf w).dy (wrapOf w) ≤ 7 := steppedY_le w
    have hz : stepped (attrValue w .z) (deltasOf w).dz (wrapOf w) ≤ 7 := steppedZ_le w
    have sx : ∀ u, attrValue (atCoord u .x _) .x = _ := fun u => attrValue_atCoord_same u .x hx
    have sy : ∀ u, attrValue (atCoord u .y _) .y = _ := fun u => attrValue_atCoord_same u .y hy
    have sz : ∀ u, attrValue (atCoord u .z _) .z = _ := fun u => attrValue_atCoord_same u .z hz
    have ox : ∀ u a, a ≠ Attr.x → attrValue (atCoord u .x _) a = attrValue u a :=
      fun u _ h => attrValue_atCoord_other u .x hx h
    have oy : ∀ u a, a ≠ Attr.y → attrValue (atCoord u .y _) a = attrValue u a :=
      fun u _ h => attrValue_atCoord_other u .y hy h
    have oz : ∀ u a, a ≠ Attr.z → attrValue (atCoord u .z _) a = attrValue u a :=
      fun u _ h => attrValue_atCoord_other u .z hz h
  · simp only [path, route, steppedX, steppedY, steppedZ, cellOf]
    simp [ox, oy, oz, sx, sy, sz]
  · simp [ox]
  · simp [ox, oy]

/-- What one axis does to the frame buffer: nothing at all, or one synchronisation. -/
theorem moveAxis_link {s : State W} (hs : s.fb.wf = true) (i : Fin 25) (ax : Axis) (d : Delta)
    (wr : Bool) :
    moveAxis defaultConfig i ax d wr s = s ∨
      Synced s.fb (moveAxis defaultConfig i ax d wr s).fb (s.sprite i)
        ((moveAxis defaultConfig i ax d wr s).sprite i) := by
  rcases moveAxis_cases i ax d wr s with ⟨h, -⟩ | ⟨h, -⟩
  · exact .inl h
  · rw [h, syncWrite_sprite]
    exact .inr (syncWrite_synced hs i _ _)

theorem link_untouched {i : Fin 25} {s t : State W}
    (h : t = s ∨ Synced s.fb t.fb (s.sprite i) (t.sprite i)) :
    Untouched s.fb t.fb [cellOf (s.sprite i), cellOf (t.sprite i)] := by
  rcases h with rfl | h
  · exact untouched_refl _ _
  · exact synced_untouched h

/-- Everything a step does to the frame buffer (R172, R216): only cells of the path change, and a
step that moves the sprite at all leaves the path off but for the cell it ends on. -/
theorem moveStep_path (i : Fin 25) {s : State W} (hs : s.fb.wf = true) :
    Untouched s.fb (moveStep defaultConfig i s).fb (path (s.sprite i)) ∧
      (moveStep defaultConfig i s = s ∨
        Travelled (moveStep defaultConfig i s).fb (path (s.sprite i))
          ((moveStep defaultConfig i s).sprite i)) := by
  obtain ⟨s₁, s₂, s₃, h, e₁, e₂, e₃, hp, -, -⟩ := moveStep_chain i s
  have l₁ : s₁ = s ∨ Synced s.fb s₁.fb (s.sprite i) (s₁.sprite i) := e₁ ▸ moveAxis_link hs i .x _ _
  have hs₁ : s₁.fb.wf = true := e₁ ▸ (moveAxis_only defaultConfig i .x _ _ s).wf hs
  have l₂ : s₂ = s₁ ∨ Synced s₁.fb s₂.fb (s₁.sprite i) (s₂.sprite i) :=
    e₂ ▸ moveAxis_link hs₁ i .y _ _
  have hs₂ : s₂.fb.wf = true := e₂ ▸ (moveAxis_only defaultConfig i .y _ _ s₁).wf hs₁
  have l₃ : s₃ = s₂ ∨ Synced s₂.fb s₃.fb (s₂.sprite i) (s₃.sprite i) :=
    e₃ ▸ moveAxis_link hs₂ i .z _ _
  rw [h, hp]
  refine ⟨untouched_trans (untouched_mono (link_untouched l₁) (by simp +contextual))
    (untouched_trans (untouched_mono (link_untouched l₂) (by simp +contextual))
      (untouched_mono (link_untouched l₃) (by simp +contextual))), ?_⟩
  have t₁ : s₁ = s ∨ Travelled s₁.fb [cellOf (s.sprite i), cellOf (s₁.sprite i)] (s₁.sprite i) :=
    l₁.imp id fun h => travelled_first h (by simp)
  have t₂ : (s₁ = s ∧ s₂ = s) ∨ Travelled s₂.fb
      [cellOf (s.sprite i), cellOf (s₁.sprite i), cellOf (s₂.sprite i)] (s₂.sprite i) := by
    rcases l₂ with rfl | l₂
    · rcases t₁ with t₁ | t₁
      · exact .inl ⟨t₁, t₁⟩
      · exact .inr ⟨t₁.final, fun c hm => t₁.cleared c (by simpa using hm)⟩
    · rcases t₁ with rfl | t₁
      · exact .inr (travelled_first l₂ (by simp))
      · exact .inr (travelled_next t₁ l₂ (by simp +contextual [or_assoc]))
  rcases l₃ with rfl | l₃
  · rcases t₂ with ⟨-, t₂⟩ | t₂
    · exact .inl t₂
    · exact .inr ⟨t₂.final, fun c hm => t₂.cleared c (by simpa using hm)⟩
  · rcases t₂ with ⟨rfl, rfl⟩ | t₂
    · exact .inr (travelled_first l₃ (by simp))
    · exact .inr (travelled_next t₂ l₃ (by simp +contextual [or_assoc]))

/-- A step that leaves the sprite's word alone leaves everything alone (R172). -/
theorem moveStep_same {i : Fin 25} {s : State W} (h : stepWord (s.sprite i) = s.sprite i) :
    moveStep defaultConfig i s = s := by
  have hx : steppedX (s.sprite i) = attrValue (s.sprite i) .x := by rw [← attrValue_stepWord_x, h]
  have hy : steppedY (s.sprite i) = attrValue (s.sprite i) .y := by rw [← attrValue_stepWord_y, h]
  have hz : steppedZ (s.sprite i) = attrValue (s.sprite i) .z := by rw [← attrValue_stepWord_z, h]
  obtain ⟨s₁, s₂, s₃, hs, e₁, e₂, e₃, -⟩ := moveStep_chain i s
  rw [moveAxis_same (ax := .x) hx] at e₁
  rw [e₁, moveAxis_same (ax := .y) hy] at e₂
  rw [e₂, moveAxis_same (ax := .z) hz] at e₃
  rw [hs, e₃]

end Sys2Proof.Machine
end

