-- ==== Sys2Proof/Laws/Tick.lean ====
section
/-! SUPPORT. TICK's sprite loop (44_movement.md rule R174): what it leaves alone, and that each
sprite's word is stepped once or not at all. -/

namespace Sys2Proof.Machine

variable {W : Nat}

open Sys2Proof.Safety

/-- `s` and `t` differ at most in the sprite words and the frame buffer, whose canonical form is
kept. -/
def OnlySprites (s t : State W) : Prop :=
  ∃ v m, t = { s with spr := v, fb := m } ∧ (s.fb.wf = true → m.wf = true)

theorem OnlySprites.refl (s : State W) : OnlySprites s s := ⟨s.spr, s.fb, rfl, id⟩

theorem OnlySprites.trans {s t u : State W} (h₁ : OnlySprites s t) (h₂ : OnlySprites t u) :
    OnlySprites s u := by
  obtain ⟨v, m, rfl, hm⟩ := h₁
  obtain ⟨v', m', rfl, hm'⟩ := h₂
  exact ⟨v', m', rfl, fun h => hm' (hm h)⟩

theorem OnlySprites.wf {s t : State W} (h : OnlySprites s t) (hs : s.fb.wf = true) :
    t.fb.wf = true := by
  obtain ⟨v, m, rfl, hm⟩ := h
  exact hm hs

theorem OnlySprite.sprites {i : Fin 25} {s t : State W} (h : OnlySprite i s t) : OnlySprites s t := by
  obtain ⟨w, m, rfl, hm⟩ := h
  exact ⟨_, m, rfl, hm⟩

theorem tickSprite_only (cfg : Config) (el : Fin 7 → Bool) (s : State W) (i : Fin 25) :
    OnlySprite i s (tickSprite cfg el s i) := by
  unfold tickSprite
  split
  · exact moveStep_only cfg i s
  · exact OnlySprite.refl i s

theorem tickFold_only (cfg : Config) (el : Fin 7 → Bool) (l : List (Fin 25)) (s : State W) :
    OnlySprites s (l.foldl (tickSprite cfg el) s) := by
  induction l generalizing s with
  | nil => exact OnlySprites.refl s
  | cons i l ih => exact (tickSprite_only cfg el s i).sprites.trans (ih _)

theorem tickSprites_only (cfg : Config) (el : Fin 7 → Bool) (s : State W) :
    OnlySprites s (tickSprites cfg el s) := tickFold_only cfg el _ s

/-- The loop leaves a sprite that is not in the list alone. -/
theorem tickFold_sprite_other (cfg : Config) (el : Fin 7 → Bool) {l : List (Fin 25)} {j : Fin 25}
    (hj : j ∉ l) (s : State W) : (l.foldl (tickSprite cfg el) s).sprite j = s.sprite j := by
  induction l generalizing s with
  | nil => rfl
  | cons i l ih =>
    simp only [List.mem_cons, not_or] at hj
    rw [List.foldl_cons, ih hj.2, (tickSprite_only cfg el s i).sprite_other (Ne.symm hj.1)]

/-- What TICK does to one sprite's word, at the default configuration. -/
def tickWord (el : Fin 7 → Bool) (w : Word) : Word :=
  if tickMoves defaultConfig el w then stepWord w else w

theorem tickSprite_sprite (el : Fin 7 → Bool) (s : State W) (i : Fin 25) :
    (tickSprite defaultConfig el s i).sprite i = tickWord el (s.sprite i) := by
  unfold tickSprite tickWord
  split
  · exact moveStep_sprite i s
  · rfl

theorem tickFold_sprite (el : Fin 7 → Bool) {l : List (Fin 25)} (hl : l.Nodup) {j : Fin 25}
    (hj : j ∈ l) (s : State W) :
    (l.foldl (tickSprite defaultConfig el) s).sprite j = tickWord el (s.sprite j) := by
  induction l generalizing s with
  | nil => cases hj
  | cons i l ih =>
    rw [List.nodup_cons] at hl
    rw [List.foldl_cons]
    by_cases hij : j = i
    · subst hij
      rw [tickFold_sprite_other _ _ hl.1, tickSprite_sprite]
    · have hj' : j ∈ l := by simpa [hij] using hj
      rw [ih hl.2 hj', (tickSprite_only _ el s i).sprite_other (Ne.symm hij)]

/-- Each sprite moves at most once per TICK, by the step its own word prescribes (R174). -/
theorem tickSprites_sprite (el : Fin 7 → Bool) (s : State W) (j : Fin 25) :
    (tickSprites defaultConfig el s).sprite j = tickWord el (s.sprite j) :=
  tickFold_sprite el (List.nodup_finRange 25) (List.mem_finRange j) s

/-- The loop writes no cell and no byte that is on no moved sprite's path. -/
theorem tickFold_path (el : Fin 7 → Bool) {l : List (Fin 25)} (hl : l.Nodup) {s : State W}
    (hs : s.fb.wf = true) :
    (∀ c, InCube c → (∀ i ∈ l, tickMoves defaultConfig el (s.sprite i) = true →
        c ∉ path (s.sprite i)) →
      cellCode (l.foldl (tickSprite defaultConfig el) s).fb c = cellCode s.fb c) ∧
    (∀ k, (∀ i ∈ l, tickMoves defaultConfig el (s.sprite i) = true →
        ∀ c ∈ path (s.sprite i), InCube c → k ≠ byteOf c) →
      (l.foldl (tickSprite defaultConfig el) s).fb.byteAt k = s.fb.byteAt k) := by
  induction l generalizing s with
  | nil => exact ⟨fun _ _ _ => rfl, fun _ _ => rfl⟩
  | cons i l ih =>
    rw [List.nodup_cons] at hl
    have honly := tickSprite_only defaultConfig el s i
    have hother : ∀ j ∈ l, (tickSprite defaultConfig el s i).sprite j = s.sprite j :=
      fun j hj => honly.sprite_other (fun h => hl.1 (h ▸ hj))
    obtain ⟨ihc, ihb⟩ := ih hl.2 (honly.wf hs)
    simp only [List.foldl_cons]
    refine ⟨fun c hc hne => ?_, fun k hne => ?_⟩
    · rw [ihc c hc (fun j hj hm => by
        rw [hother j hj] at hm ⊢
        exact hne j (List.mem_cons_of_mem _ hj) hm)]
      unfold tickSprite
      split
      · exact (moveStep_path i hs).1.otherCells c hc (hne i List.mem_cons_self ‹_›)
      · rfl
    · rw [ihb k (fun j hj hm => by
        rw [hother j hj] at hm ⊢
        exact hne j (List.mem_cons_of_mem _ hj) hm)]
      unfold tickSprite
      split
      · exact (moveStep_path i hs).1.otherBytes k (hne i List.mem_cons_self ‹_›)
      · rfl

/-- With no class eligible no sprite moves (R174). -/
theorem tickMoves_of_none (cfg : Config) {el : Fin 7 → Bool} (h : ∀ c, el c = false) (w : Word) :
    tickMoves cfg el w = false := by
  simp [tickMoves, h]

theorem tickSprites_of_none (cfg : Config) {el : Fin 7 → Bool} (h : ∀ c, el c = false) (s : State W) :
    tickSprites cfg el s = s := by
  unfold tickSprites
  generalize List.finRange 25 = l
  induction l generalizing s with
  | nil => rfl
  | cons i l ih => rw [List.foldl_cons, tickSprite, tickMoves_of_none cfg h]; exact ih s

/-- Eligibility at any width, on numbers (R173). -/
theorem eligible_eq_true {period : Fin 7 → Clock W} {s : State W} {now : Clock W} {c : Fin 7} :
    eligible period s now c = true ↔ (period c).toNat < (now - s.lastOf c).toNat := by
  rw [eligible, elapsed, decide_eq_true_iff, BitVec.lt_def]

theorem defaultPeriod_toNat (c : Fin 7) : (defaultPeriod c).toNat = periodTable.getD c.val 0 := by
  revert c; decide

theorem eligible_iff (s : State) (now : Clock) (c : Fin 7) :
    eligible defaultPeriod s now c = true ↔ Eligible s now c := by
  rw [eligible_eq_true, defaultPeriod_toNat, Eligible]

theorem tickMoves_iff (s : State) (w : Word) :
    tickMoves defaultConfig (eligible defaultPeriod s s.now) w = true ↔ TickMoves s w := by
  unfold tickMoves TickMoves
  rw [moves_default, speedOf_default, Bool.and_eq_true, decide_eq_true_iff]
  refine and_congr_right fun _ => ?_
  constructor
  · intro h
    split at h
    · exact ⟨_, rfl, (eligible_iff _ _ _).1 h⟩
    · cases h
  · rintro ⟨c, hc, he⟩
    rw [dif_pos (by rw [hc]; exact c.isLt)]
    have : (⟨attrValue w .speed, by rw [hc]; exact c.isLt⟩ : Fin 7) = c := Fin.ext hc
    rw [this]
    exact (eligible_iff _ _ _).2 he

end Sys2Proof.Machine
end

