-- ==== Sys2Proof/Laws/Wire.lean ====
section
/-! SUPPORT. The wire protocol (43_multiplexer.md): what emitting a list of events does, and the
events and data bits of one REFRESH. -/

namespace Sys2Proof.Machine

variable {W : Nat}

open Sys2Proof.Safety

@[simp] theorem State.emitAll_nil (s : State W) : s.emitAll [] = s := rfl

@[simp] theorem State.emitAll_cons (s : State W) (e : WireEvent) (es : List WireEvent) :
    s.emitAll (e :: es) = (s.emit e).emitAll es := rfl

theorem State.emitAll_append (s : State W) (es es' : List WireEvent) :
    s.emitAll (es ++ es') = (s.emitAll es).emitAll es' := List.foldl_append

/-- The four lines and the event list are all that emitting can change. -/
def OnlyLines (s t : State W) : Prop :=
  ∃ d c l e v, t = { s with data := d, clock := c, latch := l, layerEn := e, events := v }

theorem emit_onlyLines (s : State W) (e : WireEvent) : OnlyLines s (s.emit e) := by
  cases e <;> exact ⟨_, _, _, _, _, rfl⟩

theorem emitAll_onlyLines (s : State W) (es : List WireEvent) : OnlyLines s (s.emitAll es) := by
  induction es generalizing s with
  | nil => exact ⟨_, _, _, _, _, rfl⟩
  | cons e es ih =>
    obtain ⟨_, _, _, _, _, h⟩ := ih (s.emit e)
    obtain ⟨_, _, _, _, _, h'⟩ := emit_onlyLines s e
    exact ⟨_, _, _, _, _, by rw [State.emitAll_cons, h, h']⟩

@[simp] theorem State.emitAll_events (s : State W) (es : List WireEvent) :
    (s.emitAll es).events = s.events ++ es := by
  induction es generalizing s with
  | nil => simp
  | cons e es ih => simp [ih]

/-! ### Lines after a step (R158) -/

/-- The bits shifted leave `DATA` at the last bit and the clock low, and touch no other line. -/
theorem emitAll_shift (bits : List Bool) (s : State W) :
    s.emitAll (bits.flatMap shiftBit) =
      { s with
        data := bits.getLast?.getD s.data
        clock := if bits = [] then s.clock else false
        events := s.events ++ bits.flatMap shiftBit } := by
  induction bits generalizing s with
  | nil => simp
  | cons b bits ih =>
    rw [List.flatMap_cons, State.emitAll_append, ih]
    cases bits with
    | nil => simp [shiftBit, State.emit, State.drive, State.record]
    | cons b' bits =>
      have hl : ∀ x y : Bool, ((b' :: bits).getLast?.getD x) = ((b' :: bits).getLast?.getD y) := by
        intro x y
        rw [List.getLast?_eq_some_getLast (List.cons_ne_nil _ _)]
        rfl
      simp [shiftBit, State.emit, State.drive, State.record, hl s.data b,
        List.getLast?_cons_cons]

/-- Everything REFRESH's events do to the state. -/
theorem emitAll_refresh (cfg : Config) (s : State W) (layer : Nat) (phase : BitVec 1) :
    s.emitAll (refreshEvents cfg s.fb layer phase) =
      { s with
        data := (layerBits cfg s.fb layer phase).getLast?.getD s.data
        clock := if layerBits cfg s.fb layer phase = [] then s.clock else false
        latch := false
        layerEn := 1#6 <<< layer
        events := s.events ++ refreshEvents cfg s.fb layer phase } := by
  unfold refreshEvents blankEvents latchEvents energizeEvents
  generalize layerBits cfg s.fb layer phase = bits
  simp only [State.emitAll_append, emitAll_shift, State.emitAll_cons, State.emitAll_nil]
  simp [State.emit, State.drive, State.record]

/-! ### Counting (R158, R152 (e)) -/

theorem length_flatMap_const {α β : Type} {f : α → List β} {n : Nat}
    (h : ∀ x, (f x).length = n) (l : List α) : (l.flatMap f).length = l.length * n := by
  induction l with
  | nil => simp
  | cons x l ih => rw [List.flatMap_cons, List.length_append, h, ih, List.length_cons]; ring

theorem length_layerBits (cfg : Config) (fb : Memory) (layer : Nat) (phase : BitVec 1) :
    (layerBits cfg fb layer phase).length = 36 * cfg.nPulse := by
  unfold layerBits
  rw [length_flatMap_const (fun k => Vector.length_toList), List.length_reverse, List.length_range]

theorem length_shift (bits : List Bool) : (bits.flatMap shiftBit).length = 3 * bits.length := by
  rw [length_flatMap_const (fun _ => rfl : ∀ b, (shiftBit b).length = 3), Nat.mul_comm]

theorem length_refreshEvents (cfg : Config) (fb : Memory) (layer : Nat) (phase : BitVec 1) :
    (refreshEvents cfg fb layer phase).length = 1 + 3 * 36 * cfg.nPulse + 2 + 1 := by
  simp only [refreshEvents, blankEvents, latchEvents, energizeEvents, List.length_append,
    length_shift, length_layerBits, List.length_cons, List.length_nil]
  omega

theorem layerBits_ne_nil (fb : Memory) (layer : Nat) (phase : BitVec 1) :
    layerBits defaultConfig fb layer phase ≠ [] := by
  intro h
  have := length_layerBits defaultConfig fb layer phase
  rw [h] at this
  cases this

end Sys2Proof.Machine
end

