-- ==== Sys2Proof/Laws/Step.lean ====
section
/-! SUPPORT. What a step can do, said once: the id check (40_attribute_codec.md rule R110), each
command's effect when it goes on, and the three ways a step goes on (00_scope.md rule R7,
30_encoding.md rule R77). -/

namespace Sys2Proof.Machine

variable {W : Nat}

open Sys2Proof.Safety

/-! ### The id check -/

theorem withSprite_ok {id : Nat} (h : id < 25) (k : Fin 25 → Result W) :
    withSprite id k = k ⟨id, h⟩ := dif_pos h

theorem withSprite_refused {id : Nat} (h : ¬ id < 25) (k : Fin 25 → Result W) :
    withSprite id k = .refused .idOutOfRange := dif_neg h

theorem withSprite_next {id : Nat} {k : Fin 25 → Result W} {t : State W}
    (h : withSprite id k = .next t) : ∃ i : Fin 25, i.val = id ∧ k i = .next t := by
  by_cases hid : id < 25
  · exact ⟨⟨id, hid⟩, rfl, by rwa [withSprite_ok hid] at h⟩
  · rw [withSprite_refused hid] at h; cases h

theorem withSprite_fault {id : Nat} {k : Fin 25 → Result W} {f : Fault}
    (h : withSprite id k = .fault f) : ∃ i : Fin 25, i.val = id ∧ k i = .fault f := by
  by_cases hid : id < 25
  · exact ⟨⟨id, hid⟩, rfl, by rwa [withSprite_ok hid] at h⟩
  · rw [withSprite_refused hid] at h; cases h

/-! ### Attribute name codes (R78) -/

@[simp] theorem attrOfCode_attrCode (a : Attr) : attrOfCode (attrCode a) = some a := by
  cases a <;> rfl

theorem attrCode_of_attrOfCode {an : Nat} {a : Attr} (h : attrOfCode an = some a) :
    an = attrCode a := by
  unfold attrOfCode at h
  split at h <;> simp_all [attrCode] <;> subst h <;> rfl

theorem attrOfCode_eq_none {an : Nat} : attrOfCode an = none ↔ 12 ≤ an := by
  constructor
  · intro h
    by_contra hlt
    have : an < 12 := by omega
    interval_cases an <;> cases h
  · intro h
    obtain ⟨k, rfl⟩ := Nat.exists_eq_add_of_le h
    rw [Nat.add_comm]
    rfl

/-! ### Each command's effect, when it goes on -/

theorem getIn_next {cfg : Config} {id an : Nat} {s t : State W} (h : getIn cfg id an s = .next t) :
    ∃ v d, t = { s with res := v, draws := d } := by
  obtain ⟨i, -, hk⟩ := withSprite_next h
  split at hk <;> cases hk <;> exact ⟨_, _, rfl⟩

/-- SET touches its sprite, the frame buffer and, in parity mode, the draw counter. -/
theorem setIn_next {cfg : Config} {id an : Nat} {v : Byte} {s t : State W}
    (h : setIn cfg id an v s = .next t) :
    ∃ i : Fin 25, i.val = id ∧ ∃ u d, OnlySprite i s u ∧ t = { u with draws := d } := by
  obtain ⟨i, hi, hk⟩ := withSprite_next h
  refine ⟨i, hi, ?_⟩
  split at hk
  · cases hk
  · split at hk
    · cases hk
      exact ⟨_, s.draws + 1, ⟨_, s.fb, rfl, fun h => h⟩, rfl⟩
    · cases hk
      exact ⟨_, _, writeAttr_only cfg i _ v s, rfl⟩

theorem rndcolIn_next {cfg : Config} {id : Nat} {s t : State W} (h : rndcolIn cfg id s = .next t) :
    ∃ i : Fin 25, i.val = id ∧ OnlySprite i s t := by
  obtain ⟨i, hi, hk⟩ := withSprite_next h
  cases hk
  exact ⟨i, hi, syncWrite_only cfg i _ _ s⟩

theorem rndposIn_next {cfg : Config} {id : Nat} {s t : State W} (h : rndposIn cfg id s = .next t) :
    ∃ i : Fin 25, i.val = id ∧ OnlySprite i s t := by
  obtain ⟨i, hi, hk⟩ := withSprite_next h
  cases hk
  exact ⟨i, hi, ((syncWrite_only cfg i _ _ s).trans (syncWrite_only cfg i _ _ _)).trans
    (syncWrite_only cfg i _ _ _)⟩

theorem rnddirIn_next {cfg : Config} {id : Nat} {s t : State W} (h : rnddirIn cfg id s = .next t) :
    ∃ i : Fin 25, i.val = id ∧ t = s.setSprite i (put cfg (s.sprite i) .direction (rndD s)) := by
  obtain ⟨i, hi, hk⟩ := withSprite_next h
  cases hk
  exact ⟨i, hi, rfl⟩

theorem moveIn_next {cfg : Config} {id : Nat} {s t : State W} (h : moveIn cfg id s = .next t) :
    ∃ i : Fin 25, i.val = id ∧ t = moveStep cfg i s := by
  obtain ⟨i, hi, hk⟩ := withSprite_next h
  cases hk
  exact ⟨i, hi, rfl⟩

theorem setcellIn_next {l r c : Nat} {v : Colour} {s t : State W}
    (h : setcellIn l r c v s = .next t) :
    ∃ m, t = s.setFb m ∧ (s.fb.wf = true → m.wf = true) := by
  cases h
  exact ⟨_, State.setCell_eq s l r c v, fun hs => by
    have := State.setCell_wf hs l r c v
    rwa [State.setCell_eq] at this⟩

theorem refreshIn_next {cfg : Config} {s t : State W} (h : refreshIn cfg s = .next t) :
    s.layerCounter.toNat < 6 ∧
      t = (s.emitAll (refreshEvents cfg s.fb s.layerCounter.toNat s.mplexCounter)).setCounters
        (nextLayer s.layerCounter s.mplexCounter) (nextPhase s.mplexCounter) := by
  unfold refreshIn at h
  split at h
  · cases h; exact ⟨‹_›, rfl⟩
  · cases h

theorem tickIn_next {cfg : Config} {period : Fin 7 → Clock W} {s t : State W}
    (h : tickIn cfg period s = .next t) :
    ∃ u, OnlySprites s u ∧ t = u.stampLast (eligible period s s.now) s.now := by
  cases h
  exact ⟨_, tickSprites_only cfg _ s, rfl⟩

/-! ### What each format S command is, for a valid id (R105, R106, R130 to R132, R172) -/

theorem exec_get_known (s : State) (i : Fin 25) (a : Attr) :
    exec (.get i.val (attrCode a)) s =
      .next (s.setRes ((field defaultConfig (s.sprite i) a).setWidth 32)) := by
  change getIn defaultConfig i.val (attrCode a) s = _
  unfold getIn
  rw [withSprite_ok i.isLt, attrOfCode_attrCode]

theorem exec_set_known (s : State) (i : Fin 25) (a : Attr) (v : Byte) :
    exec (.set i.val (attrCode a) v) s = .next (writeAttr defaultConfig i a v s) := by
  change setIn defaultConfig i.val (attrCode a) v s = _
  unfold setIn
  rw [withSprite_ok i.isLt, attrOfCode_attrCode]
  exact if_neg (fun h => absurd h.2 (by decide))

theorem exec_set_sync {a : Attr} (h : isSync a = true) (s : State) (i : Fin 25) (v : Byte) :
    exec (.set i.val (attrCode a) v) s = .next (syncWrite defaultConfig i a v s) := by
  rw [exec_set_known, writeAttr, if_pos h]

theorem exec_set_plain {a : Attr} (h : isSync a = false) (s : State) (i : Fin 25) (v : Byte) :
    exec (.set i.val (attrCode a) v) s = .next (plainWrite defaultConfig i a v s) := by
  rw [exec_set_known, writeAttr, h]
  rfl

theorem exec_rndcol_ok (s : State) (i : Fin 25) :
    exec (.rndcol i.val) s = .next (syncWrite defaultConfig i .colour (rndC s) s) := by
  change rndcolIn defaultConfig i.val s = _
  exact withSprite_ok i.isLt _

theorem exec_rndpos_ok (s : State) (i : Fin 25) :
    exec (.rndpos i.val) s =
      .next (syncWrite defaultConfig i .z (rndZ s) (syncWrite defaultConfig i .y (rndY s)
        (syncWrite defaultConfig i .x (rndX s) s))) := by
  change rndposIn defaultConfig i.val s = _
  exact withSprite_ok i.isLt _

theorem exec_rnddir_ok (s : State) (i : Fin 25) :
    exec (.rnddir i.val) s = .next (plainWrite defaultConfig i .direction (rndD s) s) := by
  change rnddirIn defaultConfig i.val s = _
  exact withSprite_ok i.isLt _

theorem exec_move_ok (s : State) (i : Fin 25) :
    exec (.move i.val) s = .next (moveStep defaultConfig i s) := by
  change moveIn defaultConfig i.val s = _
  exact withSprite_ok i.isLt _

/-- A synchronised write in the spec's terms (R104, R107). -/
theorem syncWrite_full {s : State W} (h : s.fb.wf = true) (i : Fin 25) (a : Attr) (v : Byte) :
    ∃ w m, syncWrite defaultConfig i a v s = (s.setSprite i w).setFb m ∧
      Written (s.sprite i) w a v ∧ Synced s.fb m (s.sprite i) w := by
  obtain ⟨m, e, -⟩ := syncWrite_eq defaultConfig i a v s
  refine ⟨_, m, e, put_written _ _ _, ?_⟩
  have := syncWrite_synced h i a v
  rwa [e] at this

/-! ### The default configuration and the step -/

theorem exec_eq_execIn (i : Instr) (s : State) : exec i s = execIn defaultConfig i s := by
  cases i <;> rfl

theorem step_eq_stepIn (s : State) : step s = stepIn defaultConfig s := by
  unfold step stepIn
  cases fetch s with
  | idle => rfl
  | ignored => rfl
  | run i s' => exact exec_eq_execIn i s'

theorem fetch_nil {s : State W} (h : s.inbox = []) : fetch s = .idle := by
  simp [fetch, h]

theorem fetch_reserved {s : State W} {r : Request W} {rest : List (Request W)}
    (h : s.inbox = r :: rest) (hd : decode r.cmd = .reserved) : fetch s = .ignored (s.present r rest) := by
  simp [fetch, h, hd]

theorem fetch_command {s : State W} {r : Request W} {rest : List (Request W)} {i : Instr}
    (h : s.inbox = r :: rest) (hd : decode r.cmd = .command i) :
    fetch s = .run i (s.present r rest) := by
  simp [fetch, h, hd]

/-- What a step finds, said once. -/
theorem fetch_cases (s : State W) :
    (s.inbox = [] ∧ fetch s = .idle) ∨
      ∃ r rest, s.inbox = r :: rest ∧
        ((decode r.cmd = .reserved ∧ fetch s = .ignored (s.present r rest)) ∨
          ∃ i, decode r.cmd = .command i ∧ fetch s = .run i (s.present r rest)) := by
  cases hi : s.inbox with
  | nil => exact .inl ⟨rfl, fetch_nil hi⟩
  | cons r rest =>
    refine .inr ⟨r, rest, rfl, ?_⟩
    cases hd : decode r.cmd with
    | reserved => exact .inl ⟨rfl, fetch_reserved hi hd⟩
    | command i => exact .inr ⟨i, rfl, fetch_command hi hd⟩

/-- A step answers what one of three cases gives (R7, R77). -/
theorem stepIn_cases (cfg : Config) (s : State cfg.clockW) :
    (s.inbox = [] ∧ stepIn cfg s = .next s) ∨
      ∃ r rest, s.inbox = r :: rest ∧
        ((decode r.cmd = .reserved ∧ stepIn cfg s = .next (s.present r rest)) ∨
          ∃ i, decode r.cmd = .command i ∧ stepIn cfg s = execIn cfg i (s.present r rest)) := by
  unfold stepIn
  rcases fetch_cases s with ⟨h, hf⟩ | ⟨r, rest, h, ⟨hd, hf⟩ | ⟨i, hd, hf⟩⟩
  · exact .inl ⟨h, by rw [hf]⟩
  · exact .inr ⟨r, rest, h, .inl ⟨hd, by rw [hf]⟩⟩
  · exact .inr ⟨r, rest, h, .inr ⟨i, hd, by rw [hf]⟩⟩

/-! ### What no command does -/

/-- Only REFRESH can fault, and only where `layerCounter` names no layer (assumption log 6). -/
theorem exec_fault {i : Instr} {s : State} {f : Fault} (h : exec i s = .fault f) :
    i = .refresh ∧ 5 < s.layerCounter.toNat := by
  cases i with
  | get id an =>
    change getIn _ _ _ _ = _ at h
    unfold getIn at h
    obtain ⟨i, -, hk⟩ := withSprite_fault h
    split at hk <;> cases hk
  | set id an v =>
    change setIn _ _ _ _ _ = _ at h
    unfold setIn at h
    obtain ⟨i, -, hk⟩ := withSprite_fault h
    (repeat' split at hk) <;> cases hk
  | rndcol id =>
    change rndcolIn _ _ _ = _ at h
    unfold rndcolIn at h
    obtain ⟨i, -, hk⟩ := withSprite_fault h
    cases hk
  | rndpos id =>
    change rndposIn _ _ _ = _ at h
    unfold rndposIn at h
    obtain ⟨i, -, hk⟩ := withSprite_fault h
    cases hk
  | rnddir id =>
    change rnddirIn _ _ _ = _ at h
    unfold rnddirIn at h
    obtain ⟨i, -, hk⟩ := withSprite_fault h
    cases hk
  | move id =>
    change moveIn _ _ _ = _ at h
    unfold moveIn at h
    obtain ⟨i, -, hk⟩ := withSprite_fault h
    cases hk
  | setcell l r c v => cases h
  | refresh =>
    change refreshIn _ _ = _ at h
    unfold refreshIn at h
    split at h
    · cases h
    · exact ⟨rfl, by have : ¬ s.layerCounter.toNat < 6 := ‹_›; omega⟩
  | tick => cases h

/-- No command touches the commands that wait or the port readings sampled. -/
theorem execIn_ports {cfg : Config} {i : Instr} {s t : State cfg.clockW} (h : execIn cfg i s = .next t) :
    t.inbox = s.inbox ∧ t.now = s.now ∧ t.rnd = s.rnd := by
  cases i with
  | get id an => obtain ⟨v, d, rfl⟩ := getIn_next h; exact ⟨rfl, rfl, rfl⟩
  | set id an v => obtain ⟨i, -, u, d, ⟨w, m, rfl, -⟩, rfl⟩ := setIn_next h; exact ⟨rfl, rfl, rfl⟩
  | rndcol id => obtain ⟨i, -, w, m, rfl, -⟩ := rndcolIn_next h; exact ⟨rfl, rfl, rfl⟩
  | rndpos id => obtain ⟨i, -, w, m, rfl, -⟩ := rndposIn_next h; exact ⟨rfl, rfl, rfl⟩
  | rnddir id => obtain ⟨i, -, rfl⟩ := rnddirIn_next h; exact ⟨rfl, rfl, rfl⟩
  | move id =>
    obtain ⟨i, -, rfl⟩ := moveIn_next h
    obtain ⟨w, m, e, -⟩ := moveStep_only cfg i s
    rw [e]
    exact ⟨rfl, rfl, rfl⟩
  | setcell l r c v => obtain ⟨m, rfl, -⟩ := setcellIn_next h; exact ⟨rfl, rfl, rfl⟩
  | refresh => obtain ⟨-, rfl⟩ := refreshIn_next h; rw [emitAll_refresh]; exact ⟨rfl, rfl, rfl⟩
  | tick => obtain ⟨u, ⟨v, m, rfl, -⟩, rfl⟩ := tickIn_next h; exact ⟨rfl, rfl, rfl⟩

/-! ### Runs -/

theorem run_succ (n : Nat) (s : State) :
    run (n + 1) s = match step s with
      | .next s' => run n s'
      | .fault f => .fault f
      | .refused r => .refused r := rfl

theorem run_succ_next {n : Nat} {s t : State} (h : step s = .next t) :
    run (n + 1) s = run n t := by
  rw [run_succ, h]

theorem hostRun_succ (M : Host.Core) (n : Nat) (s : M.State) :
    (∀ t, M.step s = .next t → M.run (n + 1) s = M.run n t) ∧
      (∀ f, M.step s = .fault f → M.run (n + 1) s = .fault f) ∧
      (∀ r, M.step s = .refused r → M.run (n + 1) s = .refused r) := by
  simp +contextual [Host.Core.run]

/-- `run` is the host's own iteration of the machine. -/
theorem hostRun_eq_run (n : Nat) (s : State) : Host.Core.run core n s = run n s := by
  induction n generalizing s with
  | zero => rfl
  | succ n ih =>
    obtain ⟨h₁, h₂, h₃⟩ := hostRun_succ core n s
    rw [run_succ]
    cases h : step s with
    | next t => exact (h₁ t h).trans (ih t)
    | fault f => exact h₂ f h
    | refused r => exact h₃ r h

end Sys2Proof.Machine
end

