-- ==== Sys2Proof/Tests/Slice0.lean ====
section
/-! SUPPORT. The model's own tests. Expected values are those of 95_test_vectors.md (the table named
in each docstring) or of the rule named; the witnesses show that the hypotheses of each statement of
Certificates/Slice0/Obligations.lean can be met, at the ends of their ranges. -/

namespace Sys2Proof.Tests

open Sys2Proof.Machine Sys2Proof.Safety

/-! ## Small states -/

/-- `s` with one command waiting. -/
def given (s : State) (cmd : Word) (now : Clock) (rnd : BitVec 15) : State :=
  { s with inbox := [⟨cmd, now, rnd⟩] }

/-- One step from `s` goes on, to a state that `p` accepts. -/
def goesTo (s : State) (p : State → Bool) : Bool :=
  match step s with
  | .next t => p t
  | .fault _ => false
  | .refused _ => false

/-- One step from `s` is refused for the reason `q`. -/
def refusedFor (s : State) (q : Refusal) : Bool :=
  match step s with
  | .next _ => false
  | .fault _ => false
  | .refused r => decide (r = q)

/-- The reset state but for sprite 0 and the frame buffer. -/
def oneSprite (w : Word) (fb : Memory) : State :=
  { State.reset with spr := State.reset.spr.set 0 w, fb := fb }

/-! ## WellFormed refuses what no field can hold (R71, R72) -/

theorem test_wf_get_id : Instr.wellFormed (.get 32 0) = false := by decide
theorem test_wf_get_an : Instr.wellFormed (.get 0 16) = false := by decide
theorem test_wf_set_id : Instr.wellFormed (.set 32 0 0) = false := by decide
theorem test_wf_set_an : Instr.wellFormed (.set 0 16 0) = false := by decide
theorem test_wf_rndcol_id : Instr.wellFormed (.rndcol 32) = false := by decide
theorem test_wf_rndpos_id : Instr.wellFormed (.rndpos 32) = false := by decide
theorem test_wf_rnddir_id : Instr.wellFormed (.rnddir 32) = false := by decide
theorem test_wf_move_id : Instr.wellFormed (.move 32) = false := by decide
theorem test_wf_setcell_layer : Instr.wellFormed (.setcell 256 0 0 0) = false := by decide
theorem test_wf_setcell_row : Instr.wellFormed (.setcell 0 256 0 0) = false := by decide
theorem test_wf_setcell_col : Instr.wellFormed (.setcell 0 0 256 0) = false := by decide

/-! ## Decoding: words written out from the formats of R71 to R73 and the opcodes of R74 -/

/-- OP 0001, ID 00011, AN 0001, eleven zeros, VAL 0. -/
theorem test_decode_get :
    decode 0b00010001100010000000000000000000 = .command (.get 3 1) := by decide
/-- OP 0010, ID 11111, AN 1111, eleven zeros, VAL 11111111 (V-DEC). -/
theorem test_decode_set :
    decode 0b00101111111110000000000011111111 = .command (.set 31 15 255) := by decide
/-- OP 0011, ID 11000, 23 zeros (V-DEC). -/
theorem test_decode_rndcol :
    decode 0b00111100000000000000000000000000 = .command (.rndcol 24) := by decide
/-- OP 0100, ID 00010, 23 zeros (V-RND). -/
theorem test_decode_rndpos :
    decode 0b01000001000000000000000000000000 = .command (.rndpos 2) := by decide
/-- OP 0101, ID 00100, 23 zeros (V-RND). -/
theorem test_decode_rnddir :
    decode 0b01010010000000000000000000000000 = .command (.rnddir 4) := by decide
/-- OP 0110, ID 11111, 23 zeros (V-DEC). -/
theorem test_decode_move :
    decode 0b01101111100000000000000000000000 = .command (.move 31) := by decide
/-- OP 0111, LAYER 00000010, ROW 00000011, COL 00000100, two zeros, COLOUR 11 (V-ADDR). -/
theorem test_decode_setcell :
    decode 0b01110000001000000011000001000011 = .command (.setcell 2 3 4 3) := by decide
/-- OP 1000, 28 zeros. -/
theorem test_decode_refresh :
    decode 0b10000000000000000000000000000000 = .command .refresh := by decide
/-- OP 1001, 28 zeros. -/
theorem test_decode_tick :
    decode 0b10010000000000000000000000000000 = .command .tick := by decide
/-- The RESERVED words of V-DEC. -/
theorem test_decode_reserved :
    decode 0x00000000 = .reserved ∧ decode 0x10000001 = .reserved ∧
    decode 0x10000100 = .reserved ∧ decode 0x20040000 = .reserved ∧
    decode 0x30080000 = .reserved ∧ decode 0x60000001 = .reserved ∧
    decode 0x70000004 = .reserved ∧ decode 0x80000001 = .reserved ∧
    decode 0xA0000000 = .reserved ∧ decode 0xFFFFFFFF = .reserved := by decide

/-- The listing of R84. -/
theorem test_encode_listing :
    encode (.get 3 1) = 0x11880000 ∧ encode (.set 3 1 5) = 0x21880005 ∧
    encode (.set 0 0 3) = 0x20000003 ∧ encode (.rndcol 4) = 0x32000000 ∧
    encode (.move 24) = 0x6C000000 ∧ encode (.setcell 5 5 5 2) = 0x70505052 ∧
    encode .refresh = 0x80000000 ∧ encode .tick = 0x90000000 := by decide

/-- Rows of R74 through the table's numbering, and the very next step. -/
theorem test_table_word :
    decodeTableWord 32 0x60000000 = some (.move 0) ∧ decodeTableWord 32 0 = none ∧
    goesTo (State.reset.withFetchWord 32 0x80000000) (fun t => t.mplexCounter == 1) = true := by
  decide +kernel

/-! ## Single steps -/

/-- R105's example: word 0xA5C3961E holds direction 11. -/
theorem test_get_direction :
    goesTo (given { State.reset with spr := State.reset.spr.set 7 0xA5C3961E } 0x13A00000 0 0)
      (fun t => t.res == 11 && t.sprite 7 == 0xA5C3961E) = true := by decide
/-- V-DEC and R193: GET of id 31 and SET of id 31, name 15 are refused for the id, SET of id 15, name 15
for the name; V-REFUSE: GET of name 12 goes on and changes no sprite. -/
theorem test_get_set_refused :
    refusedFor (given State.reset 0x1F800000 0 0) .idOutOfRange = true ∧
    refusedFor (given State.reset 0x2FF800FF 0 0) .idOutOfRange = true ∧
    refusedFor (given State.reset 0x27F80000 0 0) .unknownAttributeSet = true ∧
    goesTo (given State.reset 0x10600000 0 0) (fun t => t.spr == State.reset.spr) = true := by
  decide

/-- V-SYNC row 7: x from 5 to 2 clears (3,3,5) and lights (3,3,2). -/
theorem test_set_sync :
    goesTo (given (oneSprite 0x01006177 [(32, 0xC0)]) 0x20080002 0 0)
      (fun t => t.sprite 0 == 0x0100616B && t.fb == [(32, 0x03)]) = true := by decide
/-- P5 row 3: colour 22 overflows into x; the clear hits the lit cell, the new cell is dropped. -/
theorem test_set_overflow :
    goesTo (given (oneSprite 0x01006B4B [(12, 0x0C), (30, 0x30)]) 0x20000016 0 0)
      (fun t => t.sprite 0 == 0x01006B5E && t.fb == [(12, 0x0C)]) = true := by decide
/-- V-RND, on a sprite that is lit at (1,1,1). -/
theorem test_rndcol :
    goesTo (given { State.reset with spr := State.reset.spr.set 4 0x01002125, fb := [(10, 0x40)] }
      0x32000000 0 0x6C2E) (fun t => t.sprite 4 == 0x01002126 && t.fb == [(10, 0x80)]) = true := by
  decide
/-- V-RND, second row. -/
theorem test_rndpos :
    goesTo (given { State.reset with spr := State.reset.spr.set 4 0x01002126, fb := [(10, 0x80)] }
      0x42000000 0 0x6C2E) (fun t => t.sprite 4 == 0x0100812E && t.fb == [(38, 0x08)]) = true := by
  decide
/-- V-RND, third row. -/
theorem test_rnddir :
    goesTo (given { State.reset with spr := State.reset.spr.set 4 0x0100812E, fb := [(38, 0x08)] }
      0x52000000 0 0x6C2E) (fun t => t.sprite 4 == 0x01009B2E && t.fb == [(38, 0x08)]) = true := by
  decide

/-- V-MOVE row 6, `BACK_UP_LEFT`: three axes, and (4,3,2) ends off. -/
theorem test_move_composite :
    goesTo (given (oneSprite 0x01008D6B [(41, 0x03)]) 0x60000000 0 0)
      (fun t => t.sprite 0 == 0x0100AD87 && cellCode t.fb (5, 4, 1) == 3 && t.fb.length == 1) =
      true := by decide
/-- V-HALT: x halts at 5, y and z move. -/
theorem test_move_halt :
    goesTo (given (oneSprite 0x01004F56 [(22, 0x08)]) 0x60000000 0 0)
      (fun t => t.sprite 0 == 0x01006F76 && t.fb == [(32, 0x80)]) = true := by decide

/-- V-SETCELL row 8: the neighbours in the byte stay. -/
theorem test_setcell :
    goesTo (given { State.reset with fb := [(0, 0xF9), (53, 0x80)] } 0x70000010 0 0)
      (fun t => t.fb == [(0, 0xF1), (53, 0x80)]) = true := by decide
/-- V-SETCELL rows 9 and 12: dropped. -/
theorem test_setcell_dropped :
    goesTo (given State.reset 0x70600003 0 0) (fun t => t.fb == []) = true ∧
    goesTo (given State.reset 0x7FFFFFF3 0 0) (fun t => t.fb == []) = true := by decide

/-- V-REFRESH (a): 220 events, the last but for the latch a data bit 0, counters (0,1). -/
theorem test_refresh_events :
    goesTo (given { State.reset with fb := [(0, 0x02)] } 0x80000000 0 0)
      (fun t => t.events.length == 220 && t.events.drop 211 ==
        [.data true, .clock true, .clock false, .data false, .clock true, .clock false,
          .latch true, .latch false, .layerEn 0b000001] &&
        t.layerCounter == 0 && t.mplexCounter == 1) = true := by decide +kernel
/-- P3 step 12: layer 5, red pass; the 1 bit is the twelfth shifted, and the counters wrap. -/
theorem test_refresh_red_wrap :
    goesTo (given { State.reset with fb := [(52, 0x10)], layerCounter := 5, mplexCounter := 1 }
      0x80000000 0 0)
      (fun t => (t.events.drop 34).take 1 == [.data true] && t.layerEn == 0b100000 &&
        t.layerCounter == 0 && t.mplexCounter == 0) = true := by decide +kernel

/-- V-TICK row 5: `NOW` = 801, class 6, all classes eligible. -/
theorem test_tick_moves :
    goesTo (given (oneSprite 0x0D01414B []) 0x90000000 801 0)
      (fun t => t.sprite 0 == 0x0D01414F && t.last == Vector.replicate 7 801) = true := by decide +kernel
/-- V-TICK row 4: `NOW` = 800 is not more than the period of class 6. -/
theorem test_tick_strict :
    goesTo (given (oneSprite 0x0D01414B []) 0x90000000 800 0)
      (fun t => t.sprite 0 == 0x0D01414B && t.last == #v[800, 800, 800, 800, 800, 800, 0]) =
      true := by decide +kernel

/-- V-AXIS, a row with each outcome. -/
theorem test_axis_step :
    (List.range 8).map (fun v => axisStep v .neg true) =
      [some 5, some 0, some 1, some 2, some 3, some 4, some 5, some 5] ∧
    (List.range 8).map (fun v => axisStep v .pos false) =
      [some 1, some 2, some 3, some 4, some 5, none, none, none] := by decide

/-- The default configuration keeps R152 (a) to (d). -/
theorem test_default_pat : PatOk defaultConfig where
  redInPhase0 := by decide
  greenInPhase1 := by decide
  blueInPhase1 := by decide
  greenLights := by decide
  blueLights := by decide
  greenBlueDiffer := by decide
  redLights := by decide

/-- Memory's canonical form: a zero byte, a disorder and a byte outside `FB[0..53]` are refused. -/
theorem test_memory_wf :
    Memory.wf [(0, 1), (53, 2)] = true ∧ Memory.wf [(0, 0)] = false ∧
    Memory.wf [(1, 1), (0, 1)] = false ∧ Memory.wf [(54, 1)] = false ∧
    Memory.write [(3, 1)] 3 0 = [] := by decide

/-! ## Witnesses: each statement's hypotheses, met together -/

/-- Sprite 0 blue, visible and live at (5,3,3), with its cell lit (10_state.md, V-WORD). -/
def shownSprite : State := oneSprite 0x01006177 [(32, 0xC0)]

/-- A state in the middle of the cube's refresh: layer 5 energized, the red pass next. -/
def refreshing : State :=
  { shownSprite with layerCounter := 5, mplexCounter := 1, layerEn := 0b100000 }

theorem witness_DecodeOfEncodeIsIdentity :
    Instr.wellFormed (.set 31 15 255) = true ∧ Instr.wellFormed (.setcell 255 255 255 3) = true ∧
    Instr.wellFormed (.get 0 0) = true := by decide

theorem witness_EncodeOfDecodeIsIdentity :
    decode 0x7FFFFFF3 = .command (.setcell 255 255 255 3) := by decide

theorem witness_StepRunsTheDecodedCommand :
    (given shownSprite 0x11880000 7 9).inbox = [⟨0x11880000, 7, 9⟩] ∧
    decode 0x11880000 = .command (.get 3 1) := by decide

/-- Each clause of `ReservedWord`, at the ends of its range. -/
theorem witness_ReservedCommandIsIgnored :
    (given shownSprite 0xA0000000 7 9).inbox = [⟨0xA0000000, 7, 9⟩] ∧
    ReservedWord 0x00000000 ∧ ReservedWord 0xA0000000 ∧ ReservedWord 0xFFFFFFFF ∧
    ReservedWord 0x10000001 ∧ ReservedWord 0x10040000 ∧ ReservedWord 0x20000100 ∧
    ReservedWord 0x20040000 ∧ ReservedWord 0x30000001 ∧ ReservedWord 0x60400000 ∧
    ReservedWord 0x70000004 ∧ ReservedWord 0x70000008 ∧ ReservedWord 0x80000001 ∧
    ReservedWord 0x98000000 := by
  simp [ReservedWord, given]

theorem witness_NoCommandNoChange : refreshing.inbox = [] := by decide

theorem witness_UnrecognizedNames : 12 ≤ 12 ∧ 12 ≤ 15 := by decide

/-- Both clauses of `SetWritesAndSynchronises`. -/
theorem witness_SetWritesAndSynchronises :
    shownSprite.fb.wf = true ∧
    Attr.x ∈ [Attr.colour, .x, .y, .visible, .z, .state] ∧
    Attr.speed ∈ [Attr.direction, .move, .wrap, .attack, .defend, .speed] := by decide

theorem witness_SetThenGetReturnsTheValue : InWidth .direction 15 ∧ InWidth .visible 1 := by
  simp [InWidth, fieldWidth]

/-- An attribute in range, and bits just outside its group. -/
theorem witness_SetIsIsolated :
    InWidth .z 7 ∧ 16 / 8 ≠ fieldLow .z / 8 ∧ 7 / 8 ≠ fieldLow .z / 8 ∧ (1 : Fin 25) ≠ 0 := by
  simp [InWidth, fieldWidth, fieldLow]

theorem witness_SetOfPositionClearsTheOldCell :
    shownSprite.fb.wf = true ∧ Attr.z ∈ [Attr.x, .y, .z] ∧ InCube (cellOf (shownSprite.sprite 0)) := by
  unfold InCube; decide

theorem witness_IdOutOfRangeIsRefused : 25 ≤ 25 ∧ 25 ≤ 31 := by decide

theorem witness_RndcolSetsTheColour : shownSprite.fb.wf = true := by decide

theorem witness_RndposIsThreeSets : 25 ≤ 25 := by decide

theorem witness_RndposPlacesTheSprite :
    shownSprite.fb.wf = true ∧ Attr.state ∉ [Attr.x, .y, .z] ∧ 16 ≤ 16 := by decide

/-- Both clauses of `SetcellWritesOneCell`, where they meet, and a code already held. -/
theorem witness_SetcellWritesOneCell :
    5 < 6 ∧ shownSprite.fb.wf = true ∧ 5 ≤ 5 ∧ cellCode shownSprite.fb (3, 3, 5) = 3 := by decide

/-- Two codes at the corner cell of the cube. -/
theorem witness_LastSetcellWins :
    shownSprite.fb.wf = true ∧ 5 ≤ 5 ∧
    goesTo (given shownSprite 0x70505051 0 0) (fun t => cellCode t.fb (5, 5, 5) == 1) = true ∧
    goesTo (given shownSprite 0x70505052 0 0) (fun t => cellCode t.fb (5, 5, 5) == 2) = true := by
  decide

theorem witness_RefreshShiftsTheLayer :
    refreshing.layerCounter.toNat ≤ 5 ∧ shownSprite.layerCounter.toNat ≤ 5 ∧ 35 < 36 := by decide

theorem witness_RefreshEventCount : refreshing.layerCounter.toNat ≤ 5 := by decide

/-- Two states that differ in what REFRESH does not read. -/
theorem witness_RefreshDependsOnTheBufferAlone :
    PatOk defaultConfig ∧ refreshing.layerCounter.toNat ≤ 5 ∧
    refreshing.fb = { refreshing with spr := State.reset.spr }.fb ∧
    refreshing.spr ≠ State.reset.spr := ⟨test_default_pat, by decide, rfl, by decide⟩

theorem witness_RefreshesCycleThroughTheCube :
    let s := { refreshing with inbox := List.replicate 13 ⟨0x80000000, 0, 0⟩ }
    s.layerCounter.toNat ≤ 5 ∧ (∀ r ∈ s.inbox, r.cmd = 0x80000000) ∧ 13 ≤ s.inbox.length := by
  decide

theorem witness_FrameReturnsToItsStart : refreshing.layerCounter.toNat ≤ 5 := by decide

theorem witness_RefreshOfMissingLayerFaults :
    5 < { refreshing with layerCounter := 6 }.layerCounter.toNat ∧
    5 < { refreshing with layerCounter := 7 }.layerCounter.toNat := by decide

theorem witness_MoveIsOneSetPerAxis : 25 ≤ 25 := by decide

/-- V-MOVE row 6: the word changes; R172's example: it does not. -/
theorem witness_MoveStepsTheSprite :
    (oneSprite 0x01008D6B [(41, 0x03)]).fb.wf = true ∧
    goesTo (given (oneSprite 0x01008D6B [(41, 0x03)]) 0x60000000 0 0)
      (fun t => t.sprite 0 != 0x01008D6B) = true ∧
    goesTo (given shownSprite 0x60000000 0 0) (fun t => t.sprite 0 == 0x01006177) = true := by
  decide

/-- A sprite at the ends of the range of the first clause, and one with a reserved code. -/
theorem witness_DirectionsMoveByTheTable :
    (∀ a ∈ [Attr.x, .y, .z], 1 ≤ attrValue 0x01008D24 a ∧ attrValue 0x01008D24 a ≤ 4) ∧
    14 ≤ attrValue 0x01009D6B .direction ∧ 14 ≤ attrValue 0x01009F6B .direction := by decide

/-- One sprite that TICK moves and one that it does not, at the same entry. -/
theorem witness_TickIsTheMovesInOrder :
    let s := { oneSprite 0x0101414B [] with now := 1 }
    TickMoves s (s.sprite 0) ∧ ¬ TickMoves s (s.sprite 1) ∧ Eligible s s.now 0 ∧
    ¬ Eligible s s.now 1 := by
  refine ⟨⟨by decide, 0, by decide, ?_⟩, fun h => absurd h.1 (by decide), ?_, ?_⟩ <;>
    unfold Eligible <;> decide

/-- A cell and a byte off the path of the sprite that moves. -/
theorem witness_TickMovesEachSpriteOnce :
    (oneSprite 0x0101414B [(21, 0x30)]).fb.wf = true ∧ InCube (5, 5, 5) ∧
    (5, 5, 5) ∉ path 0x0101414B ∧ ∀ c ∈ path 0x0101414B, (0 : Nat) ≠ byteOf c := by
  unfold InCube; decide

theorem witness_TickWithNothingEligibleChangesNothing :
    ∀ c, ¬ Eligible shownSprite shownSprite.now c := by
  unfold Eligible; decide

/-- V-ELIG rows 9 and 10: across one wraparound, on both sides of the period. -/
theorem witness_TickToleratesOneWraparound :
    let s := { shownSprite with last := Vector.replicate 7 0xFFFFFFF0 }
    25 < 2 ^ 32 ∧ (9 : Clock) = s.lastOf 1 + BitVec.ofNat 32 25 ∧
    (10 : Clock) = s.lastOf 1 + BitVec.ofNat 32 26 := by decide

theorem inv_refreshing : Inv refreshing where
  memory := by decide
  layer := by decide
  clockLow := rfl
  latchLow := rfl
  oneHot := .inr (by decide)

theorem witness_InvariantKeptByEveryStep :
    Inv refreshing ∧ step refreshing = .next refreshing ∧
    stepIn parityConfig refreshing = .next refreshing := ⟨inv_refreshing, rfl, rfl⟩

theorem witness_NoStepFaults : Inv refreshing := inv_refreshing

/-- Each of the two reasons. -/
theorem witness_RefusalsAreExactlyThese :
    decode 0x1C880000 = .command (.get 25 1) ∧ spriteId (.get 25 1) = some 25 ∧ 24 < 25 ∧
    decode 0x2C600000 = .command (.set 24 12 0) ∧ 24 ≤ 24 ∧ 12 ≤ 12 := by decide

/-- The last valid id and name. -/
theorem witness_ObedientCallerIsNeverStopped :
    Inv (given refreshing 0x2C580000 0 0) ∧ decode 0x2C580000 = .command (.set 24 11 0) ∧
    ∀ r ∈ (given refreshing 0x2C580000 0 0).inbox, ∀ i,
      decode r.cmd = .command i → callerOk i = true := by
  refine ⟨⟨by decide, by decide, rfl, rfl, .inr (by decide)⟩, by decide, ?_⟩
  intro r hr i hi
  obtain rfl : r = ⟨0x2C580000, 0, 0⟩ := by simpa [given] using hr
  have : decode 0x2C580000 = .command (.set 24 11 0) := by decide
  rw [this] at hi
  cases hi
  decide

/-- A command that changes a sprite and the frame buffer. -/
theorem witness_WhoWritesWhat :
    decode 0x20080002 = .command (.set 0 1 2) ∧
    goesTo (given shownSprite 0x20080002 0 0)
      (fun t => t.spr != shownSprite.spr && t.fb != shownSprite.fb) = true := by decide

theorem coordsOk_shownSprite : CoordsOk shownSprite := by
  unfold CoordsOk InCube; decide

/-- A coordinate at the end of its range, under draws that only RNDPOS may not take. -/
theorem witness_SpritesStayInsideTheCube_set :
    let s := given shownSprite 0x20080005 0 0x7FFF
    CoordsOk s ∧
    (∀ r rest i, s.inbox = r :: rest → decode r.cmd = .command i →
      valueOk i ∧ ((∃ id, i = .rndpos id) → PositionDrawsOk r.rnd)) ∧
    goesTo s (fun t => attrValue (t.sprite 0) .x == 5) = true := by
  refine ⟨coordsOk_shownSprite, ?_, by decide⟩
  rintro r rest i h hi
  cases h
  have : decode 0x20080005 = .command (.set 0 1 5) := by decide
  rw [this] at hi
  cases hi
  refine ⟨fun a ha => ?_, fun ⟨_, h⟩ => by cases h⟩
  cases a <;> first | exact absurd ha (by decide) | simp [InWidth, fieldWidth]

/-- Draws at the end of their ranges. -/
theorem witness_SpritesStayInsideTheCube_rndpos :
    let s := given shownSprite 0x40000000 0 0x05B4
    CoordsOk s ∧
    (∀ r rest i, s.inbox = r :: rest → decode r.cmd = .command i →
      valueOk i ∧ ((∃ id, i = .rndpos id) → PositionDrawsOk r.rnd)) ∧
    goesTo s (fun t => cellOf (t.sprite 0) == (5, 5, 5)) = true := by
  refine ⟨coordsOk_shownSprite, ?_, by decide⟩
  rintro r rest i h hi
  cases h
  have : decode 0x40000000 = .command (.rndpos 0) := by decide
  rw [this] at hi
  cases hi
  exact ⟨trivial, fun _ => by unfold PositionDrawsOk; decide⟩

/-- The whole cube, cell by cell. -/
theorem displayed_shownSprite : Displayed shownSprite := by
  have key : ∀ l < 6, ∀ r < 6, ∀ c < 6,
      cellCode shownSprite.fb (l, r, c) = if (l, r, c) = (3, 3, 5) then 3 else 0 := by
    decide +kernel
  have other : ∀ i, ¬ i = 0 → ¬ attrValue (shownSprite.sprite i) .visible = 1 := by decide +kernel
  rintro ⟨l, r, c⟩ ⟨hl, hr, hc⟩
  rw [key l (Nat.lt_succ_of_le hl) r (Nat.lt_succ_of_le hr) c (Nat.lt_succ_of_le hc)]
  refine ⟨fun i hs hcell => ?_, fun h => ?_⟩
  · by_cases hi : i = 0
    · subst hi
      rw [if_pos (by rw [← hcell]; decide)]
      decide
    · exact absurd hs.1 (other i hi)
  · rw [if_neg]
    intro hcell
    exact h 0 ⟨by decide, by decide⟩ (by rw [hcell]; decide)

/-- The sprite moves to a cell that no other visible live sprite holds; a plain value in its width. -/
theorem witness_SetKeepsTheDisplayConsistent :
    shownSprite.fb.wf = true ∧ Displayed shownSprite ∧ InWidth .direction 13 ∧
    goesTo { shownSprite with inbox := [⟨0x20080002, 0, 0⟩] } (fun _ => true) = true ∧
    ∀ j, j ≠ 0 → ¬ attrValue (shownSprite.sprite j) .visible = 1 :=
  ⟨by decide, displayed_shownSprite, by simp [InWidth, fieldWidth], by decide, by decide +kernel⟩

theorem witness_PlacePutsTheSpriteThere :
    (5 : Byte).toNat ≤ 5 ∧ (0 : Byte).toNat ≤ 5 ∧ Attr.speed ∉ [Attr.x, .y, .z] := by decide

/-- An instance with an 8-bit clock. -/
def byteClock : Config := { defaultConfig with clockW := 8, period := fun _ => 31 }

/-- The reset state of that instance, but for the clock reading and the timestamps. -/
def byteClockState : State byteClock.clockW :=
  { State.resetAt 8 with last := Vector.replicate 7 240, now := 16 }

/-- Across one wraparound: 16 - 240 is 32 modulo 256. -/
theorem witness_TickAtEveryClockWidth :
    32 < 2 ^ byteClock.clockW ∧
    byteClockState.now = byteClockState.lastOf 6 + BitVec.ofNat byteClock.clockW 32 ∧
    (byteClock.period 6).toNat < 32 := by decide

/-- Each clause, at both ends of the operand's width. -/
theorem witness_SetAtEveryOperandWidth :
    shownSprite.fb.wf = true ∧ 8 ≤ 8 ∧ Attr.x ∈ [Attr.colour, .x, .y, .visible, .z, .state] ∧
    Attr.speed ∈ [Attr.direction, .move, .wrap, .attack, .defend, .speed] := by decide

end Sys2Proof.Tests
end

section
/-! PROOFS. The state family: the state after reset (10_state.md rule R37). -/

namespace Sys2Proof.Machine

variable {W : Nat}

/-- At reset the buffer lists no byte, so each reads as an unlisted one (R26, R37). -/
@[simp] theorem State.byteAt_resetAt (a : Nat) : (State.resetAt W).fb.byteAt a = 0 :=
  Memory.byteAt_nil a

/-- Settles O35: sprites, frame-buffer bytes and timestamps by their reading laws at reset, the other
fields by the definition of the reset state. -/
theorem resetStateIsAllZero : Obligations.ResetStateIsAllZero :=
  ⟨State.sprite_resetAt, State.byteAt_resetAt, rfl, rfl, State.lastOf_resetAt,
    rfl, rfl, rfl, rfl, rfl⟩

end Sys2Proof.Machine
end

section
/-! PROOFS. The codec family: what SET writes and how it synchronises the frame buffer (rules R102,
R104), and the id check of the format S commands (R110). -/

namespace Sys2Proof.Machine

open Sys2Proof.Safety

/-! ### Which names synchronise (R104) -/

theorem isSync_iff_mem (a : Attr) :
    isSync a = true ↔ a ∈ [Attr.colour, .x, .y, .visible, .z, .state] := by
  cases a <;> decide

theorem isSync_eq_false_iff_mem (a : Attr) :
    isSync a = false ↔ a ∈ [Attr.direction, .move, .wrap, .attack, .defend, .speed] := by
  cases a <;> decide

/-- Settles O10: the name alone decides between the synchronised write, which
`syncWrite_full` describes, and the plain one, which leaves the frame buffer as it was. -/
theorem setWritesAndSynchronises : Obligations.SetWritesAndSynchronises := by
  intro s i a v hfb
  rw [← isSync_iff_mem, ← isSync_eq_false_iff_mem]
  cases ha : isSync a with
  | true =>
    obtain ⟨w, m, hwrite, hw, hm⟩ := syncWrite_full hfb i a v
    exact ⟨w, m, (exec_set_sync ha s i v).trans (congrArg _ hwrite), hw, fun _ => hm, nofun⟩
  | false =>
    exact ⟨_, s.fb, exec_set_plain ha s i v, put_written (s.sprite i) a v, nofun, fun _ => rfl⟩

/-! ### The id check (R110) -/

/-- Every format S command tests its id before anything else (R110, R193). -/
theorem exec_refused_of_spriteId {i : Instr} {id : Nat} (hi : spriteId i = some id)
    (hid : ¬ id < 25) (s : State) : exec i s = .refused .idOutOfRange := by
  cases i with
  | setcell | refresh | tick => cases hi
  | get | set | rndcol | rndpos | rnddir | move =>
    cases hi
    simp only [exec, execGet, getIn, execSet, setIn, execRndcol, rndcolIn, execRndpos, rndposIn,
      execRnddir, rnddirIn, execMove, moveIn, withSprite_refused hid]

/-- Settles O15: each of the six commands carries its id in the field the check reads. -/
theorem idOutOfRangeIsRefused : Obligations.IdOutOfRangeIsRefused := by
  intro s id hid
  have refused {i : Instr} (hi : spriteId i = some id) : exec i s = .refused .idOutOfRange :=
    exec_refused_of_spriteId hi hid.not_gt s
  exact ⟨fun _ => refused rfl, fun _ _ => refused rfl, refused rfl, refused rfl, refused rfl,
    refused rfl⟩

end Sys2Proof.Machine
end

section
/-! PROOFS. The sprite store family: the random helpers RNDCOL, RNDPOS and RNDDIR as SETs of the
draws (rules R130 to R132). -/

namespace Sys2Proof.Machine

open Sys2Proof.Safety

/-- Two format S commands with the same id agree as soon as they agree on the valid ids: on the
others the id check refuses both (R110). -/
theorem exec_congr_of_spriteId {i j : Instr} {id : Nat} (hi : spriteId i = some id)
    (hj : spriteId j = some id) {s : State}
    (h : ∀ k : Fin 25, k.val = id → exec i s = exec j s) : exec i s = exec j s := by
  by_cases hid : id < 25
  · exact h ⟨id, hid⟩ rfl
  · rw [exec_refused_of_spriteId hi hid, exec_refused_of_spriteId hj hid]

/-- RNDCOL is SET of the colour with the draw (R130). -/
theorem exec_rndcol_eq_set (id : Nat) (s : State) :
    exec (.rndcol id) s = exec (.set id (attrCode .colour) (rndC s)) s := by
  refine exec_congr_of_spriteId rfl rfl ?_
  rintro k rfl
  rw [exec_rndcol_ok, exec_set_sync rfl]

/-- RNDDIR is SET of the direction with the draw (R132). -/
theorem exec_rnddir_eq_set (id : Nat) (s : State) :
    exec (.rnddir id) s = exec (.set id (attrCode .direction) (rndD s)) s := by
  refine exec_congr_of_spriteId rfl rfl ?_
  rintro k rfl
  rw [exec_rnddir_ok, exec_set_plain rfl]

/-- Settles O16: RNDCOL is a synchronised write of the colour, which `syncWrite_full` describes. -/
theorem rndcolSetsTheColour : Obligations.RndcolSetsTheColour := by
  intro s
  refine ⟨fun id => exec_rndcol_eq_set id s, fun i hfb => ?_⟩
  obtain ⟨w, m, hwrite, hw, hm⟩ := syncWrite_full hfb i .colour (rndC s)
  exact ⟨w, m, (exec_rndcol_ok s i).trans (congrArg _ hwrite), hw, hm⟩

/-- Settles O19: RNDDIR is a plain write of the direction, which leaves the frame buffer. -/
theorem rnddirSetsTheDirection : Obligations.RnddirSetsTheDirection := by
  intro s
  refine ⟨fun id => exec_rnddir_eq_set id s, fun i => ?_⟩
  exact ⟨_, exec_rnddir_ok s i, put_written (s.sprite i) .direction (rndD s)⟩

/-- Settles O17: each SET of a coordinate is one synchronised write, and RNDPOS is the three of them
one after the other, with the draws of the state it starts in. -/
theorem rndposIsThreeSets : Obligations.RndposIsThreeSets := by
  refine fun s => ⟨fun i => ?_, fun id hid => exec_refused_of_spriteId rfl hid.not_gt s⟩
  have setCoord (ax : Axis) (v : Byte) (t : State) :
      exec (.set i.val (attrCode (Axis.attr ax)) v) t =
        .next (syncWrite defaultConfig i (Axis.attr ax) v t) :=
    exec_set_sync (by cases ax <;> rfl) t i v
  exact ⟨_, _, _, setCoord .x (rndX s) s, setCoord .y (rndY s) _, setCoord .z (rndZ s) _,
    exec_rndpos_ok s i⟩

end Sys2Proof.Machine
end

section
/-! PROOFS. The frame buffer family: SETCELL on the 432-bit value of the buffer (20_memory.md rules
R51 to R56, 42_framebuffer.md rules R140 and R141). -/

namespace Sys2Proof.Machine

open Sys2Proof.Safety

/-! ### The buffer bit by bit (R52) -/

/-- The two bits at the offset take the code, the other six stay (R56). -/
theorem getLsbD_putCode (old : Byte) (v : Colour) {o : Nat}
    (ho : o = 0 ∨ o = 2 ∨ o = 4 ∨ o = 6) (k : Nat) :
    (putCode old o v).getLsbD k =
      if k = o then v.getLsbD 0 else if k = o + 1 then v.getLsbD 1 else old.getLsbD k := by
  by_cases hk : k < 8
  · rcases ho with rfl | rfl | rfl | rfl <;> interval_cases k <;> simp [putCode]
  · rw [if_neg (by omega), if_neg (by omega), BitVec.getLsbD_of_ge _ _ (by omega),
      BitVec.getLsbD_of_ge _ _ (by omega)]

theorem bufferBit_byte (m : Memory) (a : Nat) {k : Nat} (hk : k < 8) :
    bufferBit m (8 * a + k) = (m.byteAt a).getLsbD k := by
  rw [bufferBit, show (8 * a + k) / 8 = a by omega, show (8 * a + k) % 8 = k by omega]

/-- Canonical buffers with the same 432-bit value are equal data. -/
theorem Memory.ext_of_bufferBit {m m' : Memory} (h : m.wf = true) (h' : m'.wf = true)
    (heq : ∀ p, bufferBit m p = bufferBit m' p) : m = m' := by
  refine Memory.ext_of_wfFrom h h' fun a => BitVec.eq_of_getLsbD_eq fun k hk => ?_
  rw [← bufferBit_byte m a hk, ← bufferBit_byte m' a hk, heq]

theorem bufferBit_eq_cellCode (m : Memory) (l r c : Nat) :
    bufferBit m (72 * l + 12 * r + 2 * c) = (cellCode m (l, r, c)).getLsbD 0 ∧
    bufferBit m (72 * l + 12 * r + 2 * c + 1) = (cellCode m (l, r, c)).getLsbD 1 := by
  have bits : ∀ hi lo : Bool,
      lo = (BitVec.ofBool hi ++ BitVec.ofBool lo).getLsbD 0 ∧
      hi = (BitVec.ofBool hi ++ BitVec.ofBool lo).getLsbD 1 := by decide
  exact bits _ _

/-! ### A cell write (R56) -/

/-- A cell write changes the two bits at the cell's position (R51) and no others. -/
theorem bufferBit_writeCell {m : Memory} (h : m.wf = true) (l r c : Nat) (v : Colour) (p : Nat) :
    bufferBit (m.writeCell l r c v) p =
      if p = 72 * l + 12 * r + 2 * c then v.getLsbD 0
      else if p = 72 * l + 12 * r + 2 * c + 1 then v.getLsbD 1
      else bufferBit m p := by
  have hpos : 72 * l + 12 * r + 2 * c = 8 * cellByte l r c + cellOff r c := by
    unfold cellByte cellPos cellOff; omega
  have hoff := cellOff_cases r c
  rw [hpos]
  by_cases hp : p / 8 = cellByte l r c
  · obtain ⟨k, hk, rfl⟩ : ∃ k < 8, p = 8 * cellByte l r c + k :=
      ⟨p % 8, Nat.mod_lt _ (by decide), by omega⟩
    rw [bufferBit_byte _ _ hk, bufferBit_byte _ _ hk, Memory.writeCell, Memory.byteAt_write h,
      if_pos rfl, getLsbD_putCode _ _ hoff]
    simp only [Nat.add_assoc, Nat.add_left_cancel_iff]
  · rw [if_neg (by omega), if_neg (by omega), bufferBit, bufferBit,
      Memory.byteAt_writeCell_other h hp]

/-- Writing the code a cell already holds changes nothing. -/
theorem Memory.writeCell_cellCode {m : Memory} (h : m.wf = true) {l r c : Nat} (hl : l ≤ 5)
    (hr : r ≤ 5) (hc : c ≤ 5) : m.writeCell l r c (cellCode m (l, r, c)) = m := by
  refine Memory.ext_of_bufferBit (Memory.wf_writeCell h hl hr hc _) h fun p => ?_
  obtain ⟨h0, h1⟩ := bufferBit_eq_cellCode m l r c
  rw [bufferBit_writeCell h, ← h0, ← h1]
  split
  · next hp => rw [hp]
  · split
    · next hp => rw [hp]
    · rfl

/-! ### SETCELL (R140, R141) -/

/-- SETCELL is the cell-set operation on its operands. -/
theorem exec_setcell_ok (l r c : Nat) (v : Colour) (s : State) :
    exec (.setcell l r c v) s = .next (s.setCell l r c v) := rfl

/-- A coordinate above 5 drops the write. -/
theorem State.setCell_dropped {l r c : Nat} (h : 5 < l ∨ 5 < r ∨ 5 < c) {W : Nat} (s : State W)
    (v : Colour) : s.setCell l r c v = s := if_pos h

/-- Inside the cube the cell-set operation is the cell write. -/
theorem State.setCell_inCube {l r c : Nat} (hl : l ≤ 5) (hr : r ≤ 5) (hc : c ≤ 5) {W : Nat}
    (s : State W) (v : Colour) : s.setCell l r c v = s.setFb (s.fb.writeCell l r c v) :=
  if_neg (by omega)

/-- Settles O20: outside the cube the write is dropped; inside it the buffer is the one after the
cell write, whose bits `bufferBit_writeCell` gives. -/
theorem setcellWritesOneCell : Obligations.SetcellWritesOneCell := by
  refine fun s l r c v => ⟨fun hout => ?_, fun hfb hl hr hc => ?_⟩
  · rw [exec_setcell_ok, State.setCell_dropped hout]
  · refine ⟨s.fb.writeCell l r c v, ?_, bufferBit_writeCell hfb l r c v,
      fun a ha => Memory.byteAt_writeCell_other hfb ha v, ?_⟩
    · rw [exec_setcell_ok, State.setCell_inCube hl hr hc, State.setFb]
    · rintro rfl
      exact Memory.writeCell_cellCode hfb hl hr hc

end Sys2Proof.Machine
end

section
/-! PROOFS. The movement family: MOVE as SETs and by the direction table, TICK as a run
of MOVEs (44_movement.md rules R170 to R175). -/

namespace Sys2Proof.Machine

open Sys2Proof.Safety

/-! ### MOVE axis by axis (R172) -/

/-- SET of a coordinate is one synchronised write. -/
theorem exec_set_coord (s : State) (i : Fin 25) (ax : Axis) (v : Byte) :
    exec (.set i.val (attrCode (Axis.attr ax)) v) s =
      .next (syncWrite defaultConfig i (Axis.attr ax) v s) :=
  exec_set_sync (by cases ax <;> rfl) s i v

theorem axisBySet_moveAxis (i : Fin 25) (ax : Axis) (d : Delta) (wr : Bool) (s : State) :
    AxisBySet i ax d wr s (moveAxis defaultConfig i ax d wr s) := by
  unfold AxisBySet
  by_cases hstay : stepped (attrValue (s.sprite i) (Axis.attr ax)) d wr =
      attrValue (s.sprite i) (Axis.attr ax)
  · rw [if_pos hstay]
    exact moveAxis_same hstay
  · rw [if_neg hstay, exec_set_coord]
    rcases moveAxis_cases i ax d wr s with ⟨-, hn⟩ | ⟨hwrite, -⟩
    · exact absurd hn hstay
    · rw [hwrite]

/-- Settles O28: the three states of `moveStep_chain` are reached axis by axis, and the id check
comes first. -/
theorem moveIsOneSetPerAxis : Obligations.MoveIsOneSetPerAxis := by
  refine fun s => ⟨fun i => ?_, fun id hid => exec_refused_of_spriteId rfl hid.not_gt s⟩
  obtain ⟨s₁, s₂, s₃, hmove, rfl, rfl, rfl, -⟩ := moveStep_chain i s
  exact ⟨_, _, _, axisBySet_moveAxis i .x _ _ s, axisBySet_moveAxis i .y _ _ _,
    axisBySet_moveAxis i .z _ _ _, (exec_move_ok s i).trans (congrArg _ hmove)⟩

/-! ### The direction table (R170) -/

/-- The model's direction rows are the rows of the table. -/
theorem directionTable_getD (w : Word) :
    directionTable.getD (attrValue w .direction) (0, 0, 0) =
      (Delta.toInt (deltasOf w).dx, Delta.toInt (deltasOf w).dy, Delta.toInt (deltasOf w).dz) := by
  have rows : ∀ d : BitVec 4, directionTable.getD d.toNat (0, 0, 0) =
      (Delta.toInt (defaultConfig.dirTab d).dx, Delta.toInt (defaultConfig.dirTab d).dy,
        Delta.toInt (defaultConfig.dirTab d).dz) := by decide
  exact rows (w.extractLsb' 9 4)

/-- The rows of the reserved codes are zero. -/
theorem deltasOf_reserved {w : Word} (h : 14 ≤ attrValue w .direction) :
    deltasOf w = ⟨.zero, .zero, .zero⟩ := by
  have rows : ∀ d : BitVec 4, 14 ≤ d.toNat →
      defaultConfig.dirTab d = ⟨.zero, .zero, .zero⟩ := by decide
  exact rows (w.extractLsb' 9 4) h

/-- Away from the faces a step is plain addition, whatever the wrap flag (R171). -/
theorem stepped_interior {v : Nat} (h : 1 ≤ v ∧ v ≤ 4) (d : Delta) (wr : Bool) :
    (stepped v d wr : Int) = v + Delta.toInt d := by
  cases d with
  | zero => exact (Int.add_zero _).symm
  | pos =>
    rw [stepped, if_pos (by omega)]
    rfl
  | neg =>
    rw [stepped, if_pos (by omega), Delta.toInt]
    omega

/-- A word whose coordinates all stay is its own step. -/
theorem stepWord_eq_self {w : Word} (hx : steppedX w = attrValue w .x)
    (hy : steppedY w = attrValue w .y) (hz : steppedZ w = attrValue w .z) : stepWord w = w := by
  rw [stepWord, hx, hy, hz, show atCoord w .x (attrValue w .x) = w from atCoord_self w .x,
    show atCoord w .y (attrValue w .y) = w from atCoord_self w .y]
  exact atCoord_self w .z

theorem stepWord_reserved {w : Word} (h : 14 ≤ attrValue w .direction) : stepWord w = w := by
  have hd := deltasOf_reserved h
  apply stepWord_eq_self
  · rw [steppedX, hd, stepped]
  · rw [steppedY, hd, stepped]
  · rw [steppedZ, hd, stepped]

/-- Settles O30: a step's coordinates are `stepped` by the rows of the table, which is addition away
from the faces; a reserved code leaves the word, and so the state, alone. -/
theorem directionsMoveByTheTable : Obligations.DirectionsMoveByTheTable := by
  intro s i
  dsimp only
  rw [directionTable_getD, exec_move_ok]
  refine ⟨fun hin => ⟨_, rfl, ?_⟩, fun hres => by rw [moveStep_same (stepWord_reserved hres)]⟩
  rw [moveStep_sprite, attrValue_stepWord_x, attrValue_stepWord_y, attrValue_stepWord_z]
  exact ⟨stepped_interior (hin .x (by simp)) _ _, stepped_interior (hin .y (by simp)) _ _,
    stepped_interior (hin .z (by simp)) _ _⟩

/-! ### TICK as a run of MOVEs (R174, R175) -/

/-- TICK's sprite loop after the sprites with ids below `n`. -/
def tickUpTo (el : Fin 7 → Bool) (s : State) (n : Nat) : State :=
  ((List.finRange 25).take n).foldl (tickSprite defaultConfig el) s

theorem tickUpTo_all (el : Fin 7 → Bool) (s : State) :
    tickUpTo el s 25 = tickSprites defaultConfig el s := rfl

theorem tickUpTo_succ (el : Fin 7 → Bool) (s : State) (i : Fin 25) :
    tickUpTo el s (i.val + 1) = tickSprite defaultConfig el (tickUpTo el s i.val) i := by
  have hlt : i.val < (List.finRange 25).length := by simp
  rw [tickUpTo, List.take_succ_eq_append_getElem hlt, List.foldl_concat, List.getElem_finRange]
  rfl

/-- The loop comes to a sprite with the word it had at entry. -/
theorem tickUpTo_sprite_self (el : Fin 7 → Bool) (s : State) (i : Fin 25) :
    (tickUpTo el s i.val).sprite i = s.sprite i := by
  refine tickFold_sprite_other _ _ ?_ s
  rw [List.mem_take_iff_idxOf_lt (List.mem_finRange i), List.idxOf_finRange]
  exact lt_irrefl _

/-- The loop's work on one sprite is the model's step where the word at entry says so, and nothing
otherwise. -/
theorem tickUpTo_succ_eq_ite (el : Fin 7 → Bool) (s : State) (i : Fin 25) :
    tickUpTo el s (i.val + 1) =
      if tickMoves defaultConfig el (s.sprite i) then moveStep defaultConfig i (tickUpTo el s i.val)
      else tickUpTo el s i.val := by
  rw [tickUpTo_succ, tickSprite, tickUpTo_sprite_self]

theorem OnlySprites.lastOf {W : Nat} {s t : State W} (h : OnlySprites s t) (c : Fin 7) :
    t.lastOf c = s.lastOf c := by
  obtain ⟨v, m, rfl, -⟩ := h
  rfl

/-- The timestamps after TICK (R175). -/
theorem lastOf_stamped {s t : State} (h : OnlySprites s t) (c : Fin 7) :
    (t.stampLast (eligible defaultPeriod s s.now) s.now).lastOf c =
      if eligible defaultPeriod s s.now c then s.now else s.lastOf c := by
  rw [State.lastOf_stampLast, h.lastOf]

/-- Settles O31: the chain is the loop's states, each one MOVE or nothing on from the one before;
the stamping replaces the timestamps and nothing else. -/
theorem tickIsTheMovesInOrder : Obligations.TickIsTheMovesInOrder := by
  intro s
  set el := eligible defaultPeriod s s.now with hel
  have stamped := lastOf_stamped (tickSprites_only defaultConfig el s)
  refine ⟨tickUpTo el s, ((tickSprites defaultConfig el s).stampLast el s.now).last, rfl,
    fun i => ?_, rfl, fun c => ?_⟩
  · rw [← tickMoves_iff, ← hel, tickUpTo_succ_eq_ite, exec_move_ok]
    exact ⟨fun h => by rw [if_pos h], fun h => if_neg h⟩
  · rw [← eligible_iff]
    exact ⟨fun h => (stamped c).trans (if_pos h), fun h => (stamped c).trans (if_neg h)⟩

end Sys2Proof.Machine
end

section
/-! PROOFS. The encoding family: decoder and encoder are inverse on the command words, and the words
that are left are the RESERVED ones (30_encoding.md rules R70 to R77). -/

namespace Sys2Proof

open Sys2Proof.Machine Sys2Proof.Safety Sys2Proof.Laws.EncodeOpcode

/-! ### Slices of a word -/

theorem slice_toNat {w : Word} {lo n m : Nat} (hm : m < 2 ^ n)
    (h : ∀ k < n, w.getLsbD (lo + k) = m.testBit k) : (w.extractLsb' lo n).toNat = m := by
  apply Nat.eq_of_testBit_eq
  intro k
  rw [BitVec.testBit_toNat, BitVec.getLsbD_extractLsb']
  by_cases hk : k < n
  · rw [decide_eq_true hk, Bool.true_and, h k hk]
  · rw [decide_eq_false hk, Bool.false_and, Nat.testBit_eq_false_of_lt]
    exact lt_of_lt_of_le hm (Nat.pow_le_pow_right (by decide) (by omega))

/-- A slice inside a zero slice is zero. -/
theorem slice_zero_mono {w : Word} {lo n lo' n' : Nat} (h : w.extractLsb' lo n = 0)
    (hlo : lo ≤ lo') (hn : lo' + n' ≤ lo + n) : w.extractLsb' lo' n' = 0 := by
  rw [slice_zero] at h ⊢
  intro k hk
  have := h (lo' - lo + k) (by omega)
  rwa [show lo + (lo' - lo + k) = lo' + k by omega] at this

/-! ### The fields of the three formats (R71 to R73, R75) -/

theorem idField_formatS (op : BitVec 4) {id : Nat} (h : id < 32) (an : Nat) (v : Byte) :
    idField (formatS op id an v) = id := by
  refine slice_toNat h fun k hk => ?_
  rw [getLsbD_formatS, if_neg (by omega), if_neg (by omega), if_neg (by omega), if_pos (by omega),
    Nat.add_sub_cancel_left]

theorem anField_formatS (op : BitVec 4) (id : Nat) {an : Nat} (h : an < 16) (v : Byte) :
    anField (formatS op id an v) = an := by
  refine slice_toNat h fun k hk => ?_
  rw [getLsbD_formatS, if_neg (by omega), if_neg (by omega), if_pos (by omega),
    Nat.add_sub_cancel_left]

theorem valField_formatS (op : BitVec 4) (id an : Nat) (v : Byte) :
    valField (formatS op id an v) = v := by
  apply BitVec.eq_of_getLsbD_eq
  intro k hk
  rw [valField, BitVec.getLsbD_extractLsb', getLsbD_formatS, if_pos (by omega), Nat.zero_add,
    decide_eq_true hk, Bool.true_and]

theorem gap_formatS (op : BitVec 4) (id an : Nat) (v : Byte) :
    (formatS op id an v).extractLsb' 8 11 = 0 := by
  refine slice_zero.2 fun k hk => ?_
  rw [getLsbD_formatS, if_neg (by omega), if_pos (by omega)]

/-- With `VAL` zero the zero bits reach down to bit 0. -/
theorem low19_formatS (op : BitVec 4) (id an : Nat) :
    (formatS op id an 0#8).extractLsb' 0 19 = 0 := by
  refine slice_zero.2 fun k hk => ?_
  rw [getLsbD_formatS]
  by_cases h : k < 8
  · rw [if_pos (by omega), BitVec.getLsbD_zero]
  · rw [if_neg (by omega), if_pos (by omega)]

/-- With `AN` and `VAL` zero they reach from `ID` down to bit 0. -/
theorem low23_formatS (op : BitVec 4) (id : Nat) :
    (formatS op id 0 0#8).extractLsb' 0 23 = 0 := by
  refine slice_zero.2 fun k hk => ?_
  by_cases h : k < 19
  · exact slice_zero.1 (low19_formatS op id 0) k h
  · rw [getLsbD_formatS, if_neg (by omega), if_neg (by omega), if_pos (by omega),
      Nat.zero_testBit]

theorem layerField_formatC (op : BitVec 4) {layer : Nat} (h : layer < 256) (row col : Nat)
    (c : Colour) : layerField (formatC op layer row col c) = layer := by
  refine slice_toNat h fun k hk => ?_
  rw [getLsbD_formatC, if_neg (by omega), if_neg (by omega), if_neg (by omega), if_neg (by omega),
    if_pos (by omega), Nat.add_sub_cancel_left]

theorem rowField_formatC (op : BitVec 4) (layer : Nat) {row : Nat} (h : row < 256) (col : Nat)
    (c : Colour) : rowField (formatC op layer row col c) = row := by
  refine slice_toNat h fun k hk => ?_
  rw [getLsbD_formatC, if_neg (by omega), if_neg (by omega), if_neg (by omega), if_pos (by omega),
    Nat.add_sub_cancel_left]

theorem colField_formatC (op : BitVec 4) (layer row : Nat) {col : Nat} (h : col < 256)
    (c : Colour) : colField (formatC op layer row col c) = col := by
  refine slice_toNat h fun k hk => ?_
  rw [getLsbD_formatC, if_neg (by omega), if_neg (by omega), if_pos (by omega),
    Nat.add_sub_cancel_left]

theorem colourField_formatC (op : BitVec 4) (layer row col : Nat) (c : Colour) :
    colourField (formatC op layer row col c) = c := by
  apply BitVec.eq_of_getLsbD_eq
  intro k hk
  rw [colourField, BitVec.getLsbD_extractLsb', getLsbD_formatC, if_pos (by omega), Nat.zero_add,
    decide_eq_true hk, Bool.true_and]

theorem gap_formatC (op : BitVec 4) (layer row col : Nat) (c : Colour) :
    (formatC op layer row col c).extractLsb' 2 2 = 0 := by
  refine slice_zero.2 fun k hk => ?_
  rw [getLsbD_formatC, if_neg (by omega), if_pos (by omega)]

theorem low28_formatZ (op : BitVec 4) : (formatZ op).extractLsb' 0 28 = 0 := by
  revert op
  decide

/-- Settles O1: the word of an instruction holds its opcode, its zero bits and its operands, which is
all `decode_eq` asks. -/
theorem decodeOfEncodeIsIdentity : Obligations.DecodeOfEncodeIsIdentity := by
  intro i hi
  rw [decode_eq]
  cases i with
  | get id an =>
    obtain ⟨hid, han⟩ : id < 32 ∧ an < 16 := by simpa [Instr.wellFormed] using hi
    simp [encode, Instr.opcode, opcode_formatS, low19_formatS, idField_formatS _ hid,
      anField_formatS _ _ han]
  | set id an v =>
    obtain ⟨hid, han⟩ : id < 32 ∧ an < 16 := by simpa [Instr.wellFormed] using hi
    simp [encode, Instr.opcode, opcode_formatS, gap_formatS, idField_formatS _ hid,
      anField_formatS _ _ han, valField_formatS]
  | rndcol id | rndpos id | rnddir id | move id =>
    have hid : id < 32 := by simpa [Instr.wellFormed] using hi
    simp [encode, Instr.opcode, opcode_formatS, low23_formatS, idField_formatS _ hid]
  | setcell layer row col colour =>
    obtain ⟨⟨hl, hr⟩, hc⟩ : (layer < 256 ∧ row < 256) ∧ col < 256 := by
      simpa [Instr.wellFormed] using hi
    simp [encode, Instr.opcode, opcode_formatC, gap_formatC, layerField_formatC _ hl,
      rowField_formatC _ _ hr, colField_formatC _ _ _ hc, colourField_formatC]
  | refresh | tick => simp [encode, Instr.opcode, opcode_formatZ, low28_formatZ]

/-! ### A word from its fields -/

/-- Words that agree on a slice agree on its bits. -/
theorem getLsbD_eq_of_slice {w w' : Word} {lo n k : Nat}
    (h : w.extractLsb' lo n = w'.extractLsb' lo n) (hk : lo ≤ k ∧ k < lo + n) :
    w.getLsbD k = w'.getLsbD k := by
  have hbit : ∀ u : Word, (u.extractLsb' lo n).getLsbD (k - lo) = u.getLsbD k := fun u => by
    rw [BitVec.getLsbD_extractLsb', decide_eq_true (by omega), Bool.true_and,
      show lo + (k - lo) = k by omega]
  rw [← hbit w, ← hbit w', h]

/-- The fields of format S determine the word (R71). -/
theorem eq_of_fieldsS {w w' : Word} (hop : w.extractLsb' 28 4 = w'.extractLsb' 28 4)
    (hid : idField w = idField w') (han : anField w = anField w')
    (hgap : w.extractLsb' 8 11 = w'.extractLsb' 8 11) (hval : valField w = valField w') :
    w = w' := by
  apply BitVec.eq_of_getLsbD_eq
  intro k hk
  obtain h | h | h | h | h : (0 ≤ k ∧ k < 0 + 8) ∨ (8 ≤ k ∧ k < 8 + 11) ∨
      (19 ≤ k ∧ k < 19 + 4) ∨ (23 ≤ k ∧ k < 23 + 5) ∨ (28 ≤ k ∧ k < 28 + 4) := by omega
  · exact getLsbD_eq_of_slice hval h
  · exact getLsbD_eq_of_slice hgap h
  · exact getLsbD_eq_of_slice (BitVec.eq_of_toNat_eq han) h
  · exact getLsbD_eq_of_slice (BitVec.eq_of_toNat_eq hid) h
  · exact getLsbD_eq_of_slice hop h

/-- The fields of format C determine the word (R72). -/
theorem eq_of_fieldsC {w w' : Word} (hop : w.extractLsb' 28 4 = w'.extractLsb' 28 4)
    (hlayer : layerField w = layerField w') (hrow : rowField w = rowField w')
    (hcol : colField w = colField w') (hgap : w.extractLsb' 2 2 = w'.extractLsb' 2 2)
    (hcolour : colourField w = colourField w') : w = w' := by
  apply BitVec.eq_of_getLsbD_eq
  intro k hk
  obtain h | h | h | h | h | h : (0 ≤ k ∧ k < 0 + 2) ∨ (2 ≤ k ∧ k < 2 + 2) ∨
      (4 ≤ k ∧ k < 4 + 8) ∨ (12 ≤ k ∧ k < 12 + 8) ∨ (20 ≤ k ∧ k < 20 + 8) ∨
      (28 ≤ k ∧ k < 28 + 4) := by omega
  · exact getLsbD_eq_of_slice hcolour h
  · exact getLsbD_eq_of_slice hgap h
  · exact getLsbD_eq_of_slice (BitVec.eq_of_toNat_eq hcol) h
  · exact getLsbD_eq_of_slice (BitVec.eq_of_toNat_eq hrow) h
  · exact getLsbD_eq_of_slice (BitVec.eq_of_toNat_eq hlayer) h
  · exact getLsbD_eq_of_slice hop h

theorem idField_lt (w : Word) : idField w < 32 := BitVec.isLt _
theorem anField_lt (w : Word) : anField w < 16 := BitVec.isLt _
theorem layerField_lt (w : Word) : layerField w < 256 := BitVec.isLt _
theorem rowField_lt (w : Word) : rowField w < 256 := BitVec.isLt _
theorem colField_lt (w : Word) : colField w < 256 := BitVec.isLt _

/-- A word whose zero bits are zero is format S of its fields (R71). -/
theorem formatS_fields {w : Word} {op : BitVec 4} (hop : w.extractLsb' 28 4 = op)
    (hgap : w.extractLsb' 8 11 = 0) : formatS op (idField w) (anField w) (valField w) = w :=
  eq_of_fieldsS ((opcode_formatS _ _ _ _).trans hop.symm) (idField_formatS _ (idField_lt w) _ _)
    (anField_formatS _ _ (anField_lt w) _) ((gap_formatS _ _ _ _).trans hgap.symm)
    (valField_formatS _ _ _ _)

/-- The same with no `VAL` (R74). -/
theorem formatS_fields_noVal {w : Word} {op : BitVec 4} (hop : w.extractLsb' 28 4 = op)
    (hz : w.extractLsb' 0 19 = 0) : formatS op (idField w) (anField w) 0 = w := by
  have hval : valField w = 0 := slice_zero_mono hz (by decide) (by decide)
  rw [← hval, formatS_fields hop (slice_zero_mono hz (by decide) (by decide))]

/-- The same with neither `AN` nor `VAL` (R74). -/
theorem formatS_fields_idOnly {w : Word} {op : BitVec 4} (hop : w.extractLsb' 28 4 = op)
    (hz : w.extractLsb' 0 23 = 0) : formatS op (idField w) 0 0 = w := by
  have han : anField w = 0 :=
    congrArg BitVec.toNat (slice_zero_mono hz (by decide) (by decide) : w.extractLsb' 19 4 = 0)
  rw [← han, formatS_fields_noVal hop (slice_zero_mono hz (by decide) (by decide))]

/-- A word whose zero bits are zero is format C of its fields (R72). -/
theorem formatC_fields {w : Word} {op : BitVec 4} (hop : w.extractLsb' 28 4 = op)
    (hgap : w.extractLsb' 2 2 = 0) :
    formatC op (layerField w) (rowField w) (colField w) (colourField w) = w :=
  eq_of_fieldsC ((opcode_formatC _ _ _ _ _).trans hop.symm)
    (layerField_formatC _ (layerField_lt w) _ _ _) (rowField_formatC _ _ (rowField_lt w) _ _)
    (colField_formatC _ _ _ (colField_lt w) _) ((gap_formatC _ _ _ _ _).trans hgap.symm)
    (colourField_formatC _ _ _ _ _)

/-- A word whose zero bits are zero is format Z of its opcode (R73). -/
theorem formatZ_opcode {w : Word} {op : BitVec 4} (hop : w.extractLsb' 28 4 = op)
    (hz : w.extractLsb' 0 28 = 0) : formatZ op = w := by
  apply BitVec.eq_of_getLsbD_eq
  intro k hk
  obtain h | h : (0 ≤ k ∧ k < 0 + 28) ∨ (28 ≤ k ∧ k < 28 + 4) := by omega
  · exact getLsbD_eq_of_slice ((low28_formatZ op).trans hz.symm) h
  · exact getLsbD_eq_of_slice ((opcode_formatZ op).trans hop.symm) h

/-- Every command the decoder can answer, with the opcode and the zero bits its row asks for. -/
theorem decode_command_cases {w : Word} {i : Instr} (h : decode w = .command i) :
    let op := w.extractLsb' 28 4
    ((op = 1 ∧ w.extractLsb' 0 19 = 0) ∧ i = .get (idField w) (anField w)) ∨
      ((op = 2 ∧ w.extractLsb' 8 11 = 0) ∧ i = .set (idField w) (anField w) (valField w)) ∨
      ((op = 3 ∧ w.extractLsb' 0 23 = 0) ∧ i = .rndcol (idField w)) ∨
      ((op = 4 ∧ w.extractLsb' 0 23 = 0) ∧ i = .rndpos (idField w)) ∨
      ((op = 5 ∧ w.extractLsb' 0 23 = 0) ∧ i = .rnddir (idField w)) ∨
      ((op = 6 ∧ w.extractLsb' 0 23 = 0) ∧ i = .move (idField w)) ∨
      ((op = 7 ∧ w.extractLsb' 2 2 = 0) ∧
        i = .setcell (layerField w) (rowField w) (colField w) (colourField w)) ∨
      ((op = 8 ∧ w.extractLsb' 0 28 = 0) ∧ i = .refresh) ∨
      ((op = 9 ∧ w.extractLsb' 0 28 = 0) ∧ i = .tick) := by
  have row {p : Prop} [Decidable p] {j : Instr} {r : DecodeResult}
      (h : (if p then .command j else r) = .command i) : (p ∧ i = j) ∨ r = .command i := by
    split at h
    · cases h; exact .inl ⟨‹_›, rfl⟩
    · exact .inr h
  rw [decode_eq] at h
  exact (row h).imp_right fun h => (row h).imp_right fun h => (row h).imp_right fun h =>
    (row h).imp_right fun h => (row h).imp_right fun h => (row h).imp_right fun h =>
    (row h).imp_right fun h => (row h).imp_right fun h => (row (r := .reserved) h).resolve_right nofun

/-- Settles O2: whichever row a command comes from, the word has its opcode and its zero bits, and such
a word is the format of its own fields. -/
theorem encodeOfDecodeIsIdentity : Obligations.EncodeOfDecodeIsIdentity := by
  intro w i h
  have hid := idField_lt w
  have han := anField_lt w
  obtain ⟨⟨hop, hz⟩, rfl⟩ | ⟨⟨hop, hz⟩, rfl⟩ | ⟨⟨hop, hz⟩, rfl⟩ | ⟨⟨hop, hz⟩, rfl⟩ |
    ⟨⟨hop, hz⟩, rfl⟩ | ⟨⟨hop, hz⟩, rfl⟩ | ⟨⟨hop, hz⟩, rfl⟩ | ⟨⟨hop, hz⟩, rfl⟩ |
    ⟨⟨hop, hz⟩, rfl⟩ := decode_command_cases h
  · exact ⟨by simp [Instr.wellFormed, hid, han], formatS_fields_noVal hop hz⟩
  · exact ⟨by simp [Instr.wellFormed, hid, han], formatS_fields hop hz⟩
  · exact ⟨by simp [Instr.wellFormed, hid], formatS_fields_idOnly hop hz⟩
  · exact ⟨by simp [Instr.wellFormed, hid], formatS_fields_idOnly hop hz⟩
  · exact ⟨by simp [Instr.wellFormed, hid], formatS_fields_idOnly hop hz⟩
  · exact ⟨by simp [Instr.wellFormed, hid], formatS_fields_idOnly hop hz⟩
  · exact ⟨by simp [Instr.wellFormed, layerField_lt, rowField_lt, colField_lt],
      formatC_fields hop hz⟩
  · exact ⟨rfl, formatZ_opcode hop hz⟩
  · exact ⟨rfl, formatZ_opcode hop hz⟩

/-! ### RESERVED words (R77) -/

/-- The decoder answers RESERVED where no row's opcode and zero bits match. -/
theorem decode_eq_reserved_iff (w : Word) : decode w = .reserved ↔
    let op := w.extractLsb' 28 4
    ¬ (op = 1 ∧ w.extractLsb' 0 19 = 0) ∧ ¬ (op = 2 ∧ w.extractLsb' 8 11 = 0) ∧
      ¬ (op = 3 ∧ w.extractLsb' 0 23 = 0) ∧ ¬ (op = 4 ∧ w.extractLsb' 0 23 = 0) ∧
      ¬ (op = 5 ∧ w.extractLsb' 0 23 = 0) ∧ ¬ (op = 6 ∧ w.extractLsb' 0 23 = 0) ∧
      ¬ (op = 7 ∧ w.extractLsb' 2 2 = 0) ∧ ¬ (op = 8 ∧ w.extractLsb' 0 28 = 0) ∧
      ¬ (op = 9 ∧ w.extractLsb' 0 28 = 0) := by
  have row (p : Prop) [Decidable p] (i : Instr) (r : DecodeResult) :
      (if p then .command i else r) = .reserved ↔ ¬ p ∧ r = .reserved := by
    by_cases hp : p <;> simp [hp]
  simp only [decode_eq, row, and_true]

/-- Settles O3: opcode by opcode, the row's zero slice is the one `ReservedWord` names. -/
theorem reservedWordsAreExactlyThese : Obligations.ReservedWordsAreExactlyThese := by
  intro w
  rw [decode_eq_reserved_iff]
  unfold ReservedWord
  generalize w.extractLsb' 28 4 = op
  obtain ⟨n, hn, rfl⟩ : ∃ n < 16, op = BitVec.ofNat 4 n := ⟨op.toNat, op.isLt, by simp⟩
  interval_cases n <;> simp

/-- Settles O4: each word is evaluated. -/
theorem sampleWordsDecodeAsWritten : Obligations.SampleWordsDecodeAsWritten := by
  unfold Obligations.SampleWordsDecodeAsWritten
  decide

end Sys2Proof
end

section
/-! PROOFS. The step and the invariant: what a step answers, what every command keeps, and when a run
goes on (00_scope.md rules R7 and R11, 60_exceptions.md rules R190 to R194). -/

namespace Sys2Proof.Machine

open Sys2Proof.Safety

/-! ### The step, case by case (R7, R77) -/

theorem step_idle {s : State} (h : s.inbox = []) : step s = .next s := by
  rw [step, fetch_nil h]

theorem step_reserved {s : State} {r : Request} {rest : List Request} (h : s.inbox = r :: rest)
    (hd : decode r.cmd = .reserved) : step s = .next (s.present r rest) := by
  rw [step, fetch_reserved h hd]

theorem step_command {s : State} {r : Request} {rest : List Request} {i : Instr}
    (h : s.inbox = r :: rest) (hd : decode r.cmd = .command i) :
    step s = exec i (s.present r rest) := by
  rw [step, fetch_command h hd]

/-- `stepIn_cases` for the default configuration. -/
theorem step_cases (s : State) :
    (s.inbox = [] ∧ step s = .next s) ∨
      ∃ r rest, s.inbox = r :: rest ∧
        ((decode r.cmd = .reserved ∧ step s = .next (s.present r rest)) ∨
          ∃ i, decode r.cmd = .command i ∧ step s = exec i (s.present r rest)) := by
  simpa only [step_eq_stepIn, exec_eq_execIn] using stepIn_cases defaultConfig s

/-- Settles O5: taking the command and sampling its ports is `present`. -/
theorem stepRunsTheDecodedCommand : Obligations.StepRunsTheDecodedCommand :=
  fun _ _ _ _ h hd => step_command h hd

/-- Settles O6: every RESERVED word decodes to `reserved` (O3), which only takes the command. -/
theorem reservedCommandIsIgnored : Obligations.ReservedCommandIsIgnored :=
  fun _ r _ h hw => step_reserved h ((reservedWordsAreExactlyThese r.cmd).2 hw)

/-- Settles O7: an empty port is the idle case. -/
theorem noCommandNoChange : Obligations.NoCommandNoChange := fun _ h => step_idle h

/-! ### What every command keeps -/

variable {W : Nat}

/-- No command breaks the canonical form of the frame buffer (R144). -/
theorem execIn_wf {cfg : Config} {i : Instr} {s t : State cfg.clockW}
    (h : execIn cfg i s = .next t) (hs : s.fb.wf = true) : t.fb.wf = true := by
  cases i with
  | get id an => obtain ⟨v, d, rfl⟩ := getIn_next h; exact hs
  | set id an v => obtain ⟨i, -, u, d, hu, rfl⟩ := setIn_next h; exact hu.wf hs
  | rndcol id => obtain ⟨i, -, ht⟩ := rndcolIn_next h; exact ht.wf hs
  | rndpos id => obtain ⟨i, -, ht⟩ := rndposIn_next h; exact ht.wf hs
  | rnddir id => obtain ⟨i, -, rfl⟩ := rnddirIn_next h; exact hs
  | move id => obtain ⟨i, -, rfl⟩ := moveIn_next h; exact (moveStep_only cfg i s).wf hs
  | setcell l r c v => obtain ⟨m, rfl, hm⟩ := setcellIn_next h; exact hm hs
  | refresh => obtain ⟨-, rfl⟩ := refreshIn_next h; rw [emitAll_refresh]; exact hs
  | tick => obtain ⟨u, hu, rfl⟩ := tickIn_next h; exact hu.wf hs

/-- The counters, the lines and the events are the same. -/
structure SameDisplay (s t : State W) : Prop where
  layerCounter : t.layerCounter = s.layerCounter
  mplexCounter : t.mplexCounter = s.mplexCounter
  data : t.data = s.data
  clock : t.clock = s.clock
  latch : t.latch = s.latch
  layerEn : t.layerEn = s.layerEn
  events : t.events = s.events

theorem OnlySprites.sameDisplay {s t : State W} (h : OnlySprites s t) : SameDisplay s t := by
  obtain ⟨v, m, rfl, -⟩ := h
  exact ⟨rfl, rfl, rfl, rfl, rfl, rfl, rfl⟩

/-- Only REFRESH writes the counters, drives a line or returns an event (R62). -/
theorem execIn_sameDisplay {cfg : Config} {i : Instr} {s t : State cfg.clockW}
    (h : execIn cfg i s = .next t) (hi : i ≠ .refresh) : SameDisplay s t := by
  cases i with
  | get id an => obtain ⟨v, d, rfl⟩ := getIn_next h; exact ⟨rfl, rfl, rfl, rfl, rfl, rfl, rfl⟩
  | set id an v =>
    obtain ⟨i, -, u, d, ⟨w, m, rfl, -⟩, rfl⟩ := setIn_next h
    exact ⟨rfl, rfl, rfl, rfl, rfl, rfl, rfl⟩
  | rndcol id => obtain ⟨i, -, ht⟩ := rndcolIn_next h; exact ht.sprites.sameDisplay
  | rndpos id => obtain ⟨i, -, ht⟩ := rndposIn_next h; exact ht.sprites.sameDisplay
  | rnddir id =>
    obtain ⟨i, -, rfl⟩ := rnddirIn_next h
    exact (plainWrite_only cfg i _ _ s).sprites.sameDisplay
  | move id =>
    obtain ⟨i, -, rfl⟩ := moveIn_next h
    exact (moveStep_only cfg i s).sprites.sameDisplay
  | setcell l r c v =>
    obtain ⟨m, rfl, -⟩ := setcellIn_next h
    exact ⟨rfl, rfl, rfl, rfl, rfl, rfl, rfl⟩
  | refresh => exact absurd rfl hi
  | tick =>
    obtain ⟨u, ⟨v, m, rfl, -⟩, rfl⟩ := tickIn_next h
    exact ⟨rfl, rfl, rfl, rfl, rfl, rfl, rfl⟩

/-- REFRESH of a legal layer, written out: the lines rest at the last bit, low, low and the layer. -/
theorem execIn_refresh_ok {cfg : Config} {s : State cfg.clockW} (h : s.layerCounter.toNat ≤ 5) :
    execIn cfg .refresh s = .next { s with
      data := (layerBits cfg s.fb s.layerCounter.toNat s.mplexCounter).getLast?.getD s.data
      clock := if layerBits cfg s.fb s.layerCounter.toNat s.mplexCounter = [] then s.clock else false
      latch := false
      layerEn := 1#6 <<< s.layerCounter.toNat
      events := s.events ++ refreshEvents cfg s.fb s.layerCounter.toNat s.mplexCounter
      layerCounter := nextLayer s.layerCounter s.mplexCounter
      mplexCounter := nextPhase s.mplexCounter } := by
  change refreshIn cfg s = _
  rw [refreshIn, if_pos (by omega : _ < 6), emitAll_refresh]
  rfl

/-! ### The counters (R157) -/

theorem phase_cases (p : BitVec 1) : p = 0 ∨ p = 1 := by revert p; decide

/-- The pair advances by one place in the cycle of twelve. -/
theorem next_toNat {l : BitVec 3} (hl : l.toNat ≤ 5) (p : BitVec 1) :
    (nextLayer l p).toNat = (2 * l.toNat + p.toNat + 1) / 2 % 6 ∧
      (nextPhase p).toNat = (p.toNat + 1) % 2 := by
  obtain rfl | rfl := phase_cases p
  · exact ⟨by simp [nextLayer]; omega, rfl⟩
  · refine ⟨?_, rfl⟩
    simp [nextLayer]
    omega

theorem nextLayer_le {l : BitVec 3} (hl : l.toNat ≤ 5) (p : BitVec 1) :
    (nextLayer l p).toNat ≤ 5 := by
  rw [(next_toNat hl p).1]
  omega

/-- After REFRESH the layer energized is the one it found (R156). -/
theorem shownLayer_next {s : State W} {l : BitVec 3} {p : BitVec 1} (hl : l.toNat ≤ 5)
    (hlayer : s.layerCounter = nextLayer l p) (hphase : s.mplexCounter = nextPhase p) :
    shownLayer s = l.toNat := by
  rw [shownLayer, hlayer, hphase, (next_toNat hl p).1]
  obtain rfl | rfl := phase_cases p
  · rw [if_pos (by rfl)]
    simp
    omega
  · rw [if_neg (by decide)]
    simp
    omega

/-! ### The invariant -/

theorem SameDisplay.inv {s t : State W} (h : SameDisplay s t) (hs : Inv s) (hwf : t.fb.wf = true) :
    Inv t where
  memory := hwf
  layer := h.layerCounter ▸ hs.layer
  clockLow := h.clock ▸ hs.clockLow
  latchLow := h.latch ▸ hs.latchLow
  oneHot := by
    rw [h.layerEn, shownLayer, h.layerCounter, h.mplexCounter]
    exact hs.oneHot

theorem execIn_refresh_inv {cfg : Config} {s t : State cfg.clockW} (hs : Inv s)
    (h : execIn cfg .refresh s = .next t) : Inv t := by
  rw [execIn_refresh_ok hs.layer] at h
  cases h
  exact {
    memory := hs.memory
    layer := nextLayer_le hs.layer _
    clockLow := by simp [hs.clockLow]
    latchLow := rfl
    oneHot := .inr (by rw [shownLayer_next hs.layer rfl rfl]) }

theorem execIn_inv {cfg : Config} {i : Instr} {s t : State cfg.clockW} (hs : Inv s)
    (h : execIn cfg i s = .next t) : Inv t := by
  by_cases hi : i = .refresh
  · subst hi
    exact execIn_refresh_inv hs h
  · exact (execIn_sameDisplay h hi).inv hs (execIn_wf h hs.memory)

/-- Presenting a command touches nothing the invariant speaks of. -/
theorem inv_present {s : State W} (hs : Inv s) (r : Request W) (rest : List (Request W)) :
    Inv (s.present r rest) :=
  ⟨hs.memory, hs.layer, hs.clockLow, hs.latchLow, hs.oneHot⟩

theorem stepIn_inv (cfg : Config) (s t : State cfg.clockW) (hs : Inv s)
    (h : stepIn cfg s = .next t) : Inv t := by
  rcases stepIn_cases cfg s with ⟨-, he⟩ | ⟨r, rest, -, ⟨-, he⟩ | ⟨i, -, he⟩⟩
  · cases he.symm.trans h; exact hs
  · cases he.symm.trans h; exact inv_present hs r rest
  · exact execIn_inv (inv_present hs r rest) (he.symm.trans h)

/-- Settles O37: the default step is `stepIn` at the default configuration; REFRESH energizes the layer
it found, every other command keeps counters and lines. -/
theorem invariantKeptByEveryStep : Obligations.InvariantKeptByEveryStep :=
  ⟨fun s t hs h => stepIn_inv defaultConfig s t hs (step_eq_stepIn s ▸ h), stepIn_inv⟩

theorem inv_resetAt (W : Nat) : Inv (State.resetAt W) := ⟨rfl, Nat.zero_le 5, rfl, rfl, .inl rfl⟩

/-- Settles O36: the clock width of the reset state is 32. -/
theorem invariantAtReset : Obligations.InvariantAtReset := inv_resetAt 32

/-- Settles O48: each field by its reading law at reset, the invariant by `inv_resetAt`. -/
theorem resetAtEveryClockWidth : Obligations.ResetAtEveryClockWidth :=
  ⟨fun clockW => ⟨State.lastOf_resetAt, State.sprite_resetAt, State.byteAt_resetAt, rfl, rfl, rfl,
    rfl, rfl, rfl, rfl, inv_resetAt clockW⟩, rfl⟩

/-! ### Unrecognized names (R109) -/

theorem exec_get_unknown (s : State) (i : Fin 25) {an : Nat} (h : 12 ≤ an) :
    exec (.get i.val an) s = .next (s.setRes (Config.freeRes s.draws)).bumpDraws := by
  change getIn defaultConfig i.val an s = _
  rw [getIn, withSprite_ok i.isLt, attrOfCode_eq_none.2 h]

theorem exec_set_unknown (s : State) (i : Fin 25) {an : Nat} (h : 12 ≤ an) (v : Byte) :
    exec (.set i.val an v) s = .refused .unknownAttributeSet := by
  change setIn defaultConfig i.val an v s = _
  rw [setIn, withSprite_ok i.isLt, attrOfCode_eq_none.2 h]

/-- Settles O9: past the id check a name code from 12 on has no meaning. -/
theorem unrecognizedNames : Obligations.UnrecognizedNames :=
  fun s i _ h => ⟨exec_get_unknown s i h, exec_set_unknown s i h⟩

theorem attrCode_or_unknown (an : Nat) : (∃ a, an = attrCode a) ∨ 12 ≤ an := by
  cases h : attrOfCode an with
  | none => exact .inr (attrOfCode_eq_none.1 h)
  | some a => exact .inl ⟨a, attrCode_of_attrOfCode h⟩

/-! ### The four ways a command ends -/

/-- REFRESH faults where `layerCounter` names no layer (assumption log 6). -/
theorem exec_refresh_missing {s : State} (h : 5 < s.layerCounter.toNat) :
    exec .refresh s = .fault .layerOutOfRange :=
  if_neg (by omega : ¬ s.layerCounter.toNat < 6)

/-- Settles O27: the layer test fails before anything is emitted. -/
theorem refreshOfMissingLayerFaults : Obligations.RefreshOfMissingLayerFaults :=
  fun _ h => exec_refresh_missing h

/-- A command is refused for its id, refused for its name, faults for its layer, or goes on. -/
theorem exec_outcome (i : Instr) (s : State) :
    (exec i s = .refused .idOutOfRange ∧ ∃ id, spriteId i = some id ∧ 24 < id) ∨
      (exec i s = .refused .unknownAttributeSet ∧
        ∃ id an v, i = .set id an v ∧ id ≤ 24 ∧ 12 ≤ an) ∨
      (exec i s = .fault .layerOutOfRange ∧ i = .refresh ∧ 5 < s.layerCounter.toNat) ∨
      ∃ t, exec i s = .next t := by
  have badId {id : Nat} (h : spriteId i = some id) (hid : ¬ id < 25) :
      exec i s = .refused .idOutOfRange ∧ ∃ id, spriteId i = some id ∧ 24 < id :=
    ⟨exec_refused_of_spriteId h hid s, id, h, by omega⟩
  have goesOn {p q r : Prop} {t : State} (h : exec i s = .next t) :
      p ∨ q ∨ r ∨ ∃ t, exec i s = .next t := .inr (.inr (.inr ⟨t, h⟩))
  cases i with
  | get id an =>
    by_cases hid : id < 25
    · rcases attrCode_or_unknown an with ⟨a, rfl⟩ | han
      · exact goesOn (exec_get_known s ⟨id, hid⟩ a)
      · exact goesOn (exec_get_unknown s ⟨id, hid⟩ han)
    · exact .inl (badId rfl hid)
  | set id an v =>
    by_cases hid : id < 25
    · rcases attrCode_or_unknown an with ⟨a, rfl⟩ | han
      · exact goesOn (exec_set_known s ⟨id, hid⟩ a v)
      · exact .inr (.inl ⟨exec_set_unknown s ⟨id, hid⟩ han v, id, an, v, rfl, by omega, han⟩)
    · exact .inl (badId rfl hid)
  | rndcol id =>
    by_cases hid : id < 25
    · exact goesOn (exec_rndcol_ok s ⟨id, hid⟩)
    · exact .inl (badId rfl hid)
  | rndpos id =>
    by_cases hid : id < 25
    · exact goesOn (exec_rndpos_ok s ⟨id, hid⟩)
    · exact .inl (badId rfl hid)
  | rnddir id =>
    by_cases hid : id < 25
    · exact goesOn (exec_rnddir_ok s ⟨id, hid⟩)
    · exact .inl (badId rfl hid)
  | move id =>
    by_cases hid : id < 25
    · exact goesOn (exec_move_ok s ⟨id, hid⟩)
    · exact .inl (badId rfl hid)
  | setcell l r c v => exact goesOn (exec_setcell_ok l r c v s)
  | refresh =>
    by_cases hl : s.layerCounter.toNat ≤ 5
    · exact goesOn ((exec_eq_execIn .refresh s).trans (execIn_refresh_ok hl))
    · exact .inr (.inr (.inl ⟨exec_refresh_missing (by omega), rfl, by omega⟩))
  | tick => exact goesOn rfl

/-- Settles O38: only REFRESH of a missing layer faults, and the invariant shuts that out. -/
theorem noStepFaults : Obligations.NoStepFaults := by
  intro s f hs h
  rcases step_cases s with ⟨-, he⟩ | ⟨r, rest, -, ⟨-, he⟩ | ⟨i, -, he⟩⟩
  · cases he.symm.trans h
  · cases he.symm.trans h
  · obtain ⟨-, hlayer⟩ := exec_fault (he.symm.trans h)
    exact absurd hs.layer (Nat.not_le.2 hlayer)

/-- The two reasons for which a command is refused, the id tested before the name (R193). -/
theorem exec_refused_iff (i : Instr) (s : State) (q : Refusal) :
    exec i s = .refused q ↔
      (q = .idOutOfRange ∧ ∃ id, spriteId i = some id ∧ 24 < id) ∨
        (q = .unknownAttributeSet ∧ ∃ id an v, i = .set id an v ∧ id ≤ 24 ∧ 12 ≤ an) := by
  constructor
  · intro h
    rcases exec_outcome i s with ⟨he, hid⟩ | ⟨he, han⟩ | ⟨he, -⟩ | ⟨t, he⟩
    · cases he.symm.trans h; exact .inl ⟨rfl, hid⟩
    · cases he.symm.trans h; exact .inr ⟨rfl, han⟩
    · cases he.symm.trans h
    · cases he.symm.trans h
  · rintro (⟨rfl, id, hi, hid⟩ | ⟨rfl, id, an, v, rfl, hid, han⟩)
    · exact exec_refused_of_spriteId hi (by omega) s
    · exact exec_set_unknown s ⟨id, by omega⟩ han v

/-- Settles O39: only a decoded command can be refused, and `exec_refused_iff` says when. -/
theorem refusalsAreExactlyThese : Obligations.RefusalsAreExactlyThese := by
  intro s q
  constructor
  · intro h
    rcases step_cases s with ⟨-, he⟩ | ⟨r, rest, hin, ⟨-, he⟩ | ⟨i, hd, he⟩⟩
    · cases he.symm.trans h
    · cases he.symm.trans h
    · exact ⟨r, rest, i, hin, hd, (exec_refused_iff i _ q).1 (he.symm.trans h)⟩
  · rintro ⟨r, rest, i, hin, hd, hq⟩
    rw [step_command hin hd]
    exact (exec_refused_iff i _ q).2 hq

/-! ### The obedient caller (R218) -/

/-- The caller's commands carry valid ids and names. -/
def Obedient (l : List Request) : Prop :=
  ∀ r ∈ l, ∀ i, decode r.cmd = .command i → callerOk i = true

theorem callerOk_spriteId {i : Instr} {id : Nat} (h : callerOk i = true) (hi : spriteId i = some id) :
    id ≤ 24 := by
  cases i <;> simp_all [callerOk, spriteId]

theorem exec_goes_on {i : Instr} {s : State} (hi : callerOk i = true)
    (hlayer : s.layerCounter.toNat ≤ 5) : ∃ t, exec i s = .next t := by
  rcases exec_outcome i s with ⟨-, id, hid, hlt⟩ | ⟨-, id, an, v, rfl, -, han⟩ | ⟨-, -, hl⟩ | h
  · exact absurd (callerOk_spriteId hi hid) (Nat.not_le.2 hlt)
  · obtain ⟨-, hle⟩ : id ≤ 24 ∧ an ≤ 11 := by simpa [callerOk] using hi
    omega
  · omega
  · exact h

/-- A step of an obedient caller goes on and leaves obedient commands waiting. -/
theorem step_obedient {s : State} (hs : Inv s) (hin : Obedient s.inbox) :
    ∃ t, step s = .next t ∧ Inv t ∧ Obedient t.inbox := by
  have inv {t : State} (h : step s = .next t) : Inv t := invariantKeptByEveryStep.1 s t hs h
  rcases step_cases s with ⟨-, he⟩ | ⟨r, rest, hr, h⟩
  · exact ⟨s, he, hs, hin⟩
  · rw [hr] at hin
    have hrest : Obedient rest := fun q hq => hin q (List.mem_cons_of_mem r hq)
    rcases h with ⟨-, he⟩ | ⟨i, hd, he⟩
    · exact ⟨_, he, inv he, hrest⟩
    · obtain ⟨t, ht⟩ :=
        exec_goes_on (s := s.present r rest) (hin r List.mem_cons_self i hd) hs.layer
      obtain ⟨hports, -⟩ := execIn_ports ((exec_eq_execIn i _).symm.trans ht)
      exact ⟨t, he.trans ht, inv (he.trans ht), hports ▸ hrest⟩

/-- Settles O40, by induction on the number of steps. -/
theorem obedientCallerIsNeverStopped : Obligations.ObedientCallerIsNeverStopped := by
  intro n
  induction n with
  | zero => exact fun s hs _ => ⟨s, rfl, hs⟩
  | succ n ih =>
    intro s hs hin
    obtain ⟨t, hst, ht, hin'⟩ := step_obedient hs hin
    rw [run_succ_next hst]
    exact ih t ht hin'

/-! ### Who writes what (R62) -/

/-- The sprites, the frame buffer, the timestamps and `RES` in R62's table, for one command. -/
structure WritesOnly (i : Instr) (s t : State W) : Prop where
  spr : t.spr ≠ s.spr → i = .tick ∨ ∃ id, i = .rndcol id ∨ i = .rndpos id ∨ i = .rnddir id ∨
    i = .move id ∨ ∃ an v, i = .set id an v
  fb : t.fb ≠ s.fb → i = .tick ∨ (∃ l r c v, i = .setcell l r c v) ∨ ∃ id, i = .rndcol id ∨
    i = .rndpos id ∨ i = .move id ∨ ∃ an v, i = .set id an v
  last : t.last ≠ s.last → i = .tick
  res : t.res ≠ s.res → ∃ id an, i = .get id an

theorem execIn_writesOnly {cfg : Config} {i : Instr} {s t : State cfg.clockW}
    (h : execIn cfg i s = .next t) : WritesOnly i s t := by
  cases i with
  | get id an =>
    obtain ⟨v, d, rfl⟩ := getIn_next h
    exact ⟨absurd rfl, absurd rfl, absurd rfl, fun _ => ⟨id, an, rfl⟩⟩
  | set id an v =>
    obtain ⟨i, -, u, d, ⟨w, m, rfl, -⟩, rfl⟩ := setIn_next h
    exact ⟨by simp, by simp, absurd rfl, absurd rfl⟩
  | rndcol id =>
    obtain ⟨i, -, w, m, rfl, -⟩ := rndcolIn_next h
    exact ⟨by simp, by simp, absurd rfl, absurd rfl⟩
  | rndpos id =>
    obtain ⟨i, -, w, m, rfl, -⟩ := rndposIn_next h
    exact ⟨by simp, by simp, absurd rfl, absurd rfl⟩
  | rnddir id =>
    obtain ⟨i, -, rfl⟩ := rnddirIn_next h
    exact ⟨by simp, absurd rfl, absurd rfl, absurd rfl⟩
  | move id =>
    obtain ⟨i, -, rfl⟩ := moveIn_next h
    obtain ⟨w, m, he, -⟩ := moveStep_only cfg i s
    rw [he]
    exact ⟨by simp, by simp, absurd rfl, absurd rfl⟩
  | setcell l r c v =>
    obtain ⟨m, rfl, -⟩ := setcellIn_next h
    exact ⟨absurd rfl, by simp, absurd rfl, absurd rfl⟩
  | refresh =>
    obtain ⟨-, rfl⟩ := refreshIn_next h
    rw [emitAll_refresh]
    exact ⟨absurd rfl, absurd rfl, absurd rfl, absurd rfl⟩
  | tick =>
    obtain ⟨u, ⟨v, m, rfl, -⟩, rfl⟩ := tickIn_next h
    exact ⟨fun _ => .inl rfl, fun _ => .inl rfl, fun _ => rfl, absurd rfl⟩

/-- Settles O41: the step is `exec` of the command in the state presented, which has the same fields
and no event; display fields change under REFRESH alone. -/
theorem whoWritesWhat : Obligations.WhoWritesWhat := by
  intro s t r rest i hin hd h
  rw [step_command hin hd, exec_eq_execIn] at h
  obtain ⟨hspr, hfb, hlast, hres⟩ := execIn_writesOnly h
  have display : i ≠ .refresh → SameDisplay (s.present r rest) t := execIn_sameDisplay h
  refine ⟨hspr, hfb, fun hne => ?_, hlast, hres, fun hne => ?_⟩
  · by_contra hi
    obtain ⟨hlayer, hphase, -⟩ := display hi
    exact hne.elim (· hlayer) (· hphase)
  · by_contra hi
    obtain ⟨-, -, hdata, hclock, hlatch, hen, hevents⟩ := display hi
    exact hne.elim (· hdata) fun hne => hne.elim (· hclock) fun hne => hne.elim (· hlatch)
      fun hne => hne.elim (· hen) (· hevents)

end Sys2Proof.Machine
end

section
/-! PROOFS. GET and SET: what a GET returns, what a SET leaves alone, and the display it keeps in step
(40_attribute_codec.md rules R101 to R112, 10_state.md rule R25). -/

namespace Sys2Proof.Machine

open Sys2Proof.Safety

/-! ### GET (R105) -/

/-- The field read, zero-extended to 32 bits, is the field's value as a word. -/
theorem field_setWidth (w : Word) (a : Attr) :
    (field defaultConfig w a).setWidth 32 = BitVec.ofNat 32 (attrValue w a) :=
  BitVec.eq_of_toNat_eq (by rw [BitVec.toNat_setWidth, field_toNat, BitVec.toNat_ofNat])

theorem exec_get_attr (s : State) (i : Fin 25) (a : Attr) :
    exec (.get i.val (attrCode a)) s =
      .next (s.setRes (BitVec.ofNat 32 (attrValue (s.sprite i) a))) := by
  rw [exec_get_known, field_setWidth]

/-- Settles O8: `setRes` writes `RES` alone. -/
theorem getReturnsTheAttribute : Obligations.GetReturnsTheAttribute := exec_get_attr

/-! ### SET, then GET; other attributes and sprites (R112) -/

/-- A value inside the width is what the field then holds. -/
theorem written_value_of_inWidth {w w' : Word} {a : Attr} {v : Byte} (h : Written w w' a v)
    (hv : InWidth a v) : attrValue w' a = v.toNat := h.value.trans (Nat.mod_eq_of_lt hv)

/-- Settles O11: the word after the SET holds the value, and GET reads that word. -/
theorem setThenGetReturnsTheValue : Obligations.SetThenGetReturnsTheValue := by
  intro s i a v hv
  refine ⟨_, exec_set_known s i a v, ?_⟩
  rw [exec_get_attr, writeAttr_sprite, written_value_of_inWidth (put_written _ a v) hv,
    BitVec.ofNat_toNat]
  rfl

/-- A bit of another group is outside the field's group (R23). -/
theorem outside_of_other_group {a : Attr} {k : Nat} (h : k / 8 ≠ fieldLow a / 8) :
    k < fieldLow a ∨ groupEnd a ≤ k := by
  unfold groupEnd
  omega

/-- Settles O12: the word takes one codec write, and the write touches one sprite. -/
theorem setIsIsolated : Obligations.SetIsIsolated := by
  intro s i a v
  have hw := put_written (s.sprite i) a v
  refine ⟨_, exec_set_known s i a v, ?_, ?_, fun j hj => ?_⟩
  · intro hv b hb
    rw [writeAttr_sprite, hw.other hv hb]
  · intro k hk
    rw [writeAttr_sprite, hw.outside (outside_of_other_group hk)]
  · exact (writeAttr_only defaultConfig i a v s).sprite_other hj.symm

/-- Settles O13: a position is a sync field, and the synchronised write clears the old cell before
it lights the new one. -/
theorem setOfPositionClearsTheOldCell : Obligations.SetOfPositionClearsTheOldCell := by
  intro s i a v hfb ha hin
  have hsync : isSync a = true := (isSync_iff_mem a).2 (by revert ha; cases a <;> decide)
  refine ⟨_, exec_set_sync hsync s i v, ?_⟩
  rw [syncWrite_sprite, (syncWrite_synced hfb i a v).cells _ hin, if_pos rfl]
  simp only [eq_comm (a := cellOf (s.sprite i))]

/-! ### The AN_DEFEND setter (R108) -/

/-- In parity mode the setter merges the value into an unspecified byte instead of group 2. -/
theorem execIn_set_defend_parity (s : State) (i : Fin 25) (v : Byte) :
    execIn parityConfig (.set i.val (attrCode .defend) v) s =
      .next (parityDefendWrite parityConfig i v s) := by
  change setIn parityConfig i.val (attrCode .defend) v s = _
  rw [setIn, withSprite_ok i.isLt, attrOfCode_attrCode]
  rfl

/-- The byte merged from `old` and the value, bit by bit: the mask of the field is `0xE0`. -/
theorem getLsbD_merge_defend (old v : Byte) {k : Nat} (hk : k < 8) :
    (mergeGroup (parityConfig.attr .defend) old (setOperand parityConfig v)).getLsbD k =
      if k < 5 then old.getLsbD k else v.getLsbD (k - 5) := by
  interval_cases k <;> simp [mergeGroup, setOperand, defaultAttr]

/-- Settles O14: without parity the setter is the plain write of every other plain field; with it
group 2 becomes the merged byte and the other groups stay. -/
theorem defendSetterInBothModes : Obligations.DefendSetterInBothModes := by
  intro s i v
  refine ⟨⟨_, exec_set_plain rfl s i v, put_written _ _ _⟩, _, execIn_set_defend_parity s i v, ?_⟩
  intro k
  have hgroup : 8 * ((parityConfig.attr .defend).group : Fin 4).val = 16 := rfl
  rw [getLsbD_setGrp, hgroup]
  by_cases hk : 16 ≤ k ∧ k < 16 + 8
  · rw [if_pos hk, getLsbD_merge_defend _ _ (by omega)]
    by_cases h5 : k < 21
    · rw [if_pos (by omega), if_pos ⟨hk.1, h5⟩]
    · rw [if_neg (by omega), if_neg (by omega), if_pos (by omega), Nat.sub_sub]
  · rw [if_neg hk, if_neg (by omega), if_neg (by omega)]

/-! ### Every operand width (R6, R102) -/

/-- One SET's write in the spec's terms. -/
theorem writeAttr_full {W : Nat} {s : State W} (h : s.fb.wf = true) (i : Fin 25) (a : Attr)
    (v : Byte) :
    ∃ w m, writeAttr defaultConfig i a v s = (s.setSprite i w).setFb m ∧ Written (s.sprite i) w a v ∧
      (isSync a = true → Synced s.fb m (s.sprite i) w) ∧ (isSync a = false → m = s.fb) := by
  unfold writeAttr
  cases ha : isSync a with
  | true =>
    obtain ⟨w, m, hwrite, hw, hm⟩ := syncWrite_full h i a v
    exact ⟨w, m, hwrite, hw, fun _ => hm, nofun⟩
  | false => exact ⟨_, s.fb, rfl, put_written _ a v, nofun, fun _ => rfl⟩

theorem execIn_set_valW (n : Nat) (s : State) (i : Fin 25) (a : Attr) (v : Byte) :
    execIn { defaultConfig with valW := n } (.set i.val (attrCode a) v) s =
      .next (writeAttr defaultConfig i a (BitVec.ofNat 8 (v.toNat % 2 ^ n)) s) := by
  change setIn { defaultConfig with valW := n } i.val (attrCode a) v s = _
  rw [setIn, withSprite_ok i.isLt, attrOfCode_attrCode, ← writeAttr_valW]
  exact if_neg (fun h => Bool.false_ne_true h.2)

/-- An operand of 8 bits or more holds the whole value. -/
theorem ofNat_mod_of_le {n : Nat} (hn : 8 ≤ n) (v : Byte) :
    BitVec.ofNat 8 (v.toNat % 2 ^ n) = v := by
  rw [Nat.mod_eq_of_lt (lt_of_lt_of_le v.isLt (Nat.pow_le_pow_right (by decide) hn)),
    BitVec.ofNat_toNat, BitVec.setWidth_eq]

/-- Settles O47: at width `n` SET is the default configuration's write of the value cut to `n` bits. -/
theorem setAtEveryOperandWidth : Obligations.SetAtEveryOperandWidth := by
  intro n s i a v hfb
  obtain ⟨w, m, hwrite, hw, hsync, hplain⟩ :=
    writeAttr_full hfb i a (BitVec.ofNat 8 (v.toNat % 2 ^ n))
  rw [← isSync_iff_mem, ← isSync_eq_false_iff_mem, execIn_set_valW]
  refine ⟨w, m, congrArg _ hwrite, hw, fun hn => ?_, hsync, hplain⟩
  rw [ofNat_mod_of_le hn] at hwrite
  exact (exec_set_known s i a v).trans (congrArg _ hwrite)

/-! ### The display (R25 (b), R211) -/

theorem not_shown_zero : ¬ Shown 0 := by
  unfold Shown
  decide

theorem cellCode_nil (c : Nat × Nat × Nat) : cellCode [] c = 0 := by
  simp [cellCode, bufferBit]

/-- Settles O43: no sprite is shown at reset, and every cell is off. -/
theorem resetDisplayIsConsistent : Obligations.ResetDisplayIsConsistent := by
  have hidden (i : Fin 25) : ¬ Shown (State.reset.sprite i) := by
    rw [State.reset, State.sprite_resetAt]
    exact not_shown_zero
  exact fun c _ => ⟨fun i hi => absurd hi (hidden i), fun _ => cellCode_nil c⟩

/-- The display is a matter of the frame buffer and of the sync fields alone. -/
theorem displayed_congr {s t : State} (h : Displayed s) (hfb : t.fb = s.fb)
    (hattr : ∀ i a, isSync a = true → attrValue (t.sprite i) a = attrValue (s.sprite i) a) :
    Displayed t := by
  have hshown (i) : Shown (t.sprite i) ↔ Shown (s.sprite i) := by
    rw [Shown, Shown, hattr i .visible rfl, hattr i .state rfl]
  have hcell (i) : cellOf (t.sprite i) = cellOf (s.sprite i) := by
    rw [cellOf, cellOf, hattr i .z rfl, hattr i .y rfl, hattr i .x rfl]
  have hcolour (i) : (t.sprite i).extractLsb' 0 2 = (s.sprite i).extractLsb' 0 2 :=
    BitVec.eq_of_toNat_eq (hattr i .colour rfl)
  intro c hc
  simp only [hshown, hcell, hcolour, hfb]
  exact h c hc

/-- One synchronised write keeps the display, when no other sprite shown stands on the cell left or the
cell reached (R104). -/
theorem displayed_of_synced {s t : State} {i : Fin 25} (h : Displayed s)
    (hother : ∀ j, j ≠ i → t.sprite j = s.sprite j)
    (hsync : Synced s.fb t.fb (s.sprite i) (t.sprite i))
    (hclear : ∀ j, j ≠ i → Shown (s.sprite j) →
      cellOf (s.sprite j) ≠ cellOf (s.sprite i) ∧ cellOf (s.sprite j) ≠ cellOf (t.sprite i)) :
    Displayed t := by
  intro c hc
  rw [hsync.cells c hc]
  by_cases hnew : c = cellOf (t.sprite i)
  · -- the cell reached shows what the sprite shows
    rw [if_pos hnew]
    refine ⟨fun j hj hjc => ?_, fun hnone => ?_⟩
    · by_cases hji : j = i
      · subst hji
        exact if_pos hj
      · rw [hother j hji] at hj hjc
        exact absurd (hjc.trans hnew) (hclear j hji hj).2
    · exact if_neg fun hi => hnone i hi hnew.symm
  · rw [if_neg hnew]
    have notThere (j) (hjc : cellOf (t.sprite j) = c) : j ≠ i := by
      rintro rfl
      exact hnew hjc.symm
    by_cases hold : c = cellOf (s.sprite i)
    · -- the cell left is off, and nobody else stands there
      rw [if_pos hold]
      refine ⟨fun j hj hjc => ?_, fun _ => rfl⟩
      have hji := notThere j hjc
      rw [hother j hji] at hj hjc
      exact absurd (hjc.trans hold) (hclear j hji hj).1
    · -- every other cell, and every sprite on it, is as before
      rw [if_neg hold]
      refine ⟨fun j hj hjc => ?_, fun hnone => (h c hc).2 fun j hj hjc => ?_⟩
      · have hji := notThere j hjc
        rw [hother j hji] at hj hjc ⊢
        exact (h c hc).1 j hj hjc
      · have hji : j ≠ i := by
          rintro rfl
          exact hold hjc.symm
        exact hnone j (by rwa [hother j hji]) (by rwa [hother j hji])

/-- Settles O44: a sync field is one synchronised write; a plain one inside its width touches
neither the frame buffer nor a sync field. -/
theorem setKeepsTheDisplayConsistent : Obligations.SetKeepsTheDisplayConsistent := by
  intro s t i a v hfb hd hv h hclear
  rw [← isSync_eq_false_iff_mem] at hv
  have hother (j) (hj : j ≠ i) : (writeAttr defaultConfig i a v s).sprite j = s.sprite j :=
    (writeAttr_only defaultConfig i a v s).sprite_other hj.symm
  rw [exec_set_known] at h
  cases h
  cases ha : isSync a with
  | true =>
    refine displayed_of_synced hd hother ?_ hclear
    rw [writeAttr_sprite, writeAttr, if_pos ha]
    exact syncWrite_synced hfb i a v
  | false =>
    refine displayed_congr hd (by rw [writeAttr, ha]; rfl) fun j b hb => ?_
    by_cases hj : j = i
    · subst hj
      have hba : b ≠ a := by
        rintro rfl
        rw [ha] at hb
        cases hb
      rw [writeAttr_sprite, (put_written _ a v).other (hv ha) hba]
    · rw [hother j hj]

end Sys2Proof.Machine
end

section
/-! PROOFS. Where sprites go: RNDPOS, PLACE, MOVE and TICK on a sprite's word, on the cells it passes,
on the coordinates' range and on the timestamps (41_sprite_store.md rule R131, 44_movement.md rules
R171 to R178). -/

namespace Sys2Proof.Machine

open Sys2Proof.Safety

/-! ### A word with its three coordinates replaced -/

/-- The word after the coordinate writes x, y, z (R131, R172); `stepWord` is one of these. -/
def placeWord (w : Word) (x y z : Nat) : Word := atCoord (atCoord (atCoord w .x x) .y y) .z z

theorem stepWord_eq_placeWord (w : Word) :
    stepWord w = placeWord w (steppedX w) (steppedY w) (steppedZ w) := rfl

section
variable (w : Word) {x y z : Nat} (hx : x ≤ 7) (hy : y ≤ 7) (hz : z ≤ 7)
include hx hy hz

theorem attrValue_placeWord_x : attrValue (placeWord w x y z) .x = x := by
  rw [placeWord, attrValue_atCoord_other _ .z hz (by decide),
    attrValue_atCoord_other _ .y hy (by decide)]
  exact attrValue_atCoord_same _ .x hx

omit hx in
theorem attrValue_placeWord_y : attrValue (placeWord w x y z) .y = y := by
  rw [placeWord, attrValue_atCoord_other _ .z hz (by decide)]
  exact attrValue_atCoord_same _ .y hy

omit hx hy in
theorem attrValue_placeWord_z : attrValue (placeWord w x y z) .z = z :=
  attrValue_atCoord_same _ .z hz

theorem attrValue_placeWord_other {a : Attr} (ha : a ∉ [Attr.x, .y, .z]) :
    attrValue (placeWord w x y z) a = attrValue w a := by
  simp only [List.mem_cons, List.not_mem_nil, or_false, not_or] at ha
  obtain ⟨hax, hay, haz⟩ := ha
  rw [placeWord, attrValue_atCoord_other _ .z hz haz, attrValue_atCoord_other _ .y hy hay,
    attrValue_atCoord_other _ .x hx hax]

theorem cellOf_placeWord : cellOf (placeWord w x y z) = (z, y, x) := by
  rw [cellOf, attrValue_placeWord_x w hx hy hz, attrValue_placeWord_y w hy hz,
    attrValue_placeWord_z w hz]

/-- The cells of a route are those the words along the way stand on (R216). -/
theorem route_eq : route w x y z = [cellOf w, cellOf (atCoord w .x x),
    cellOf (atCoord (atCoord w .x x) .y y), cellOf (placeWord w x y z)] := by
  have sx (u) : attrValue (atCoord u .x x) .x = x := attrValue_atCoord_same u .x hx
  have sy (u) : attrValue (atCoord u .y y) .y = y := attrValue_atCoord_same u .y hy
  have ox (u) {a : Attr} (ha : a ≠ .x) : attrValue (atCoord u .x x) a = attrValue u a :=
    attrValue_atCoord_other u .x hx ha
  have oy (u) {a : Attr} (ha : a ≠ .y) : attrValue (atCoord u .y y) a = attrValue u a :=
    attrValue_atCoord_other u .y hy ha
  rw [cellOf_placeWord w hx hy hz]
  simp [route, cellOf, sx, sy, ox, oy]

end

/-- Coordinates lie below bit 16 (R22). -/
theorem getLsbD_atCoord_high (w : Word) (ax : Axis) (n : Nat) {k : Nat} (hk : 16 ≤ k) :
    (atCoord w ax n).getLsbD k = w.getLsbD k := by
  refine (put_written w _ _).outside (.inr (le_trans ?_ hk))
  cases ax <;> decide

theorem getLsbD_placeWord_high (w : Word) (x y z : Nat) {k : Nat} (hk : 16 ≤ k) :
    (placeWord w x y z).getLsbD k = w.getLsbD k := by
  rw [placeWord, getLsbD_atCoord_high _ _ _ hk, getLsbD_atCoord_high _ _ _ hk,
    getLsbD_atCoord_high _ _ _ hk]

/-! ### Three coordinate writes (R131) -/

/-- The state after the coordinate writes x, y, z. -/
def placeSync {W : Nat} (i : Fin 25) (x y z : Nat) (s : State W) : State W :=
  syncWrite defaultConfig i .z (BitVec.ofNat 8 z) (syncWrite defaultConfig i .y (BitVec.ofNat 8 y)
    (syncWrite defaultConfig i .x (BitVec.ofNat 8 x) s))

variable {W : Nat}

theorem placeSync_only (i : Fin 25) (x y z : Nat) (s : State W) :
    OnlySprite i s (placeSync i x y z s) :=
  ((syncWrite_only _ i _ _ s).trans (syncWrite_only _ i _ _ _)).trans (syncWrite_only _ i _ _ _)

@[simp] theorem placeSync_sprite (i : Fin 25) (x y z : Nat) (s : State W) :
    (placeSync i x y z s).sprite i = placeWord (s.sprite i) x y z := by
  simp only [placeSync, syncWrite_sprite]
  rfl

/-- One coordinate write, on the word the sprite holds. -/
theorem syncWrite_coord {s : State W} (hs : s.fb.wf = true) {i : Fin 25} {u : Word}
    (hu : s.sprite i = u) (ax : Axis) (n : Nat) :
    let t := syncWrite defaultConfig i (Axis.attr ax) (BitVec.ofNat 8 n) s
    t.fb.wf = true ∧ t.sprite i = atCoord u ax n ∧ Synced s.fb t.fb u (atCoord u ax n) := by
  subst hu
  exact ⟨(syncWrite_only _ i _ _ s).wf hs, syncWrite_sprite _ i _ _ s, syncWrite_synced hs i _ _⟩

/-- The route of one synchronised write. -/
theorem travelled_pair {m m' : Memory} {w w' : Word} (h : Synced m m' w w') :
    Travelled m' [cellOf w, cellOf w'] w' := travelled_first h (by simp)

/-- One more synchronised write makes the route one cell longer. -/
theorem travelled_append {m m' : Memory} {w w' : Word} {cells : List (Nat × Nat × Nat)}
    (ht : Travelled m cells w) (h : Synced m m' w w') :
    Travelled m' (cells ++ [cellOf w']) w' := travelled_next ht h (by simp)

/-- Everything the three writes do to the frame buffer (R216): only cells of the route change, and the
route is off but for the cell the sprite ends on. -/
theorem placeSync_path {s : State W} (hs : s.fb.wf = true) (i : Fin 25) {x y z : Nat} (hx : x ≤ 7)
    (hy : y ≤ 7) (hz : z ≤ 7) :
    Untouched s.fb (placeSync i x y z s).fb (route (s.sprite i) x y z) ∧
      Travelled (placeSync i x y z s).fb (route (s.sprite i) x y z)
        (placeWord (s.sprite i) x y z) := by
  rw [route_eq _ hx hy hz]
  obtain ⟨hs₁, w₁, l₁⟩ := syncWrite_coord hs rfl .x x
  obtain ⟨hs₂, w₂, l₂⟩ := syncWrite_coord hs₁ w₁ .y y
  obtain ⟨-, -, l₃⟩ := syncWrite_coord hs₂ w₂ .z z
  change Synced _ (placeSync i x y z s).fb _ (placeWord (s.sprite i) x y z) at l₃
  refine ⟨?_, ?_⟩
  · exact untouched_trans (untouched_mono (synced_untouched l₁) (by simp +contextual))
      (untouched_trans (untouched_mono (synced_untouched l₂) (by simp +contextual))
        (untouched_mono (synced_untouched l₃) (by simp +contextual)))
  · exact travelled_append (travelled_append (travelled_pair l₁) l₂) l₃

/-- RNDPOS is the three writes with the draws (R131). -/
theorem exec_rndpos_eq (s : State) (i : Fin 25) :
    exec (.rndpos i.val) s = .next (placeSync i (s.rnd.extractLsb' 2 3).toNat
      (s.rnd.extractLsb' 5 3).toNat (s.rnd.extractLsb' 8 3).toNat s) := by
  rw [exec_rndpos_ok, placeSync, BitVec.ofNat_toNat, BitVec.ofNat_toNat, BitVec.ofNat_toNat]
  rfl

theorem draw_le_seven (d : BitVec 3) : d.toNat ≤ 7 := Nat.le_of_lt_succ d.isLt

/-- Settles O18: RNDPOS is `placeSync` at the draws, each at most 7. -/
theorem rndposPlacesTheSprite : Obligations.RndposPlacesTheSprite := by
  intro s i hfb x y z
  have hx : x ≤ 7 := draw_le_seven _
  have hy : y ≤ 7 := draw_le_seven _
  have hz : z ≤ 7 := draw_le_seven _
  obtain ⟨w, m, he, -⟩ := placeSync_only i x y z s
  obtain ⟨huntouched, htravelled⟩ := placeSync_path hfb i hx hy hz
  have hw : w = placeWord (s.sprite i) x y z := by
    rw [← placeSync_sprite i x y z s, he]
    simp
  rw [he] at huntouched htravelled
  subst hw
  exact ⟨_, m, (exec_rndpos_eq s i).trans (congrArg _ he), attrValue_placeWord_x _ hx hy hz,
    attrValue_placeWord_y _ hy hz, attrValue_placeWord_z _ hz,
    fun a ha => attrValue_placeWord_other _ hx hy hz ha,
    fun k hk => getLsbD_placeWord_high _ _ _ _ hk, huntouched, htravelled⟩

/-! ### PLACE (R85) -/

theorem execAll_cons {i : Instr} {is : List Instr} {s t : State} (h : exec i s = .next t) :
    execAll (i :: is) s = execAll is t := by
  rw [execAll, h]

theorem execAll_place (s : State) (i : Fin 25) (x y z : Byte) :
    execAll (place i.val x y z) s = .next (placeSync i x.toNat y.toNat z.toNat s) := by
  have whole (v : Byte) : BitVec.ofNat 8 v.toNat = v := by simp
  rw [placeSync, whole, whole, whole]
  calc execAll (place i.val x y z) s
    _ = execAll [.set i.val (attrCode .y) y, .set i.val (attrCode .z) z]
          (syncWrite defaultConfig i .x x s) := execAll_cons (exec_set_coord s i .x x)
    _ = execAll [.set i.val (attrCode .z) z]
          (syncWrite defaultConfig i .y y (syncWrite defaultConfig i .x x s)) :=
        execAll_cons (exec_set_coord _ i .y y)
    _ = _ := execAll_cons (exec_set_coord _ i .z z)

/-- Settles O45: PLACE is `placeSync` at its operands. -/
theorem placePutsTheSpriteThere : Obligations.PlacePutsTheSpriteThere := by
  intro s i x y z hx hy hz
  have hx : x.toNat ≤ 7 := by omega
  have hy : y.toNat ≤ 7 := by omega
  have hz : z.toNat ≤ 7 := by omega
  refine ⟨_, execAll_place s i x y z, ?_, fun a ha => ?_, fun j hj => ?_⟩
  · rw [placeSync_sprite, cellOf_placeWord _ hx hy hz]
  · rw [placeSync_sprite, attrValue_placeWord_other _ hx hy hz ha]
  · exact (placeSync_only i _ _ _ s).sprite_other hj.symm

/-! ### MOVE (R172) -/

/-- Settles O29: the word becomes `stepWord`, a placed word; `moveStep_path` describes the frame
buffer, and a step that keeps the word keeps everything. -/
theorem moveStepsTheSprite : Obligations.MoveStepsTheSprite := by
  intro s i hfb
  dsimp only
  obtain ⟨w', m, he, -⟩ := moveStep_only defaultConfig i s
  obtain ⟨huntouched, htravelled⟩ := moveStep_path i hfb
  have hw : w' = stepWord (s.sprite i) := by
    rw [← moveStep_sprite i s, he]
    simp
  rw [moveStep_sprite, he] at htravelled
  rw [he] at huntouched
  subst hw
  refine ⟨_, m, (exec_move_ok s i).trans (congrArg _ he), attrValue_stepWord_x _,
    attrValue_stepWord_y _, attrValue_stepWord_z _, fun a ha => ?_, fun k hk => ?_, huntouched,
    fun hne => ?_, fun hsame => ?_⟩
  · exact attrValue_placeWord_other _ (steppedX_le _) (steppedY_le _) (steppedZ_le _) ha
  · exact getLsbD_placeWord_high _ _ _ _ hk
  · refine htravelled.resolve_left fun hs => hne ?_
    rw [← moveStep_sprite i s, he, hs]
  · rw [moveStep_same hsame] at he
    exact (congrArg State.fb he).symm

/-! ### TICK (R173 to R177) -/

theorem exec_tick_eq (s : State) :
    exec .tick s = .next ((tickSprites defaultConfig (eligible defaultPeriod s s.now) s).stampLast
      (eligible defaultPeriod s s.now) s.now) := rfl

/-- Settles O32: `tickSprites_sprite` gives each word, `tickFold_path` the cells and bytes, and the
stamping touches neither. -/
theorem tickMovesEachSpriteOnce : Obligations.TickMovesEachSpriteOnce := by
  intro s hfb
  set el := eligible defaultPeriod s s.now with hel
  obtain ⟨v, m, he, -⟩ := tickSprites_only defaultConfig el s
  obtain ⟨hcells, hbytes⟩ := tickFold_path el (List.nodup_finRange 25) hfb
  have hword (i : Fin 25) : v.get i = tickWord el (s.sprite i) := by
    rw [← tickSprites_sprite, he]
    rfl
  have hfold : (List.finRange 25).foldl (tickSprite defaultConfig el) s = _ := he
  rw [hfold] at hcells hbytes
  simp only [← tickMoves_iff, ← hel]
  refine ⟨v, m, _, by rw [exec_tick_eq, ← hel, he]; rfl, fun i => ⟨fun hi => ?_, fun hi => ?_⟩,
    fun c hc hne => hcells c hc fun i _ => hne i, fun a hne => hbytes a fun i _ => hne i⟩
  · exact ⟨_, exec_move_ok s i, by rw [hword, tickWord, if_pos hi, moveStep_sprite]⟩
  · rw [hword, tickWord, if_neg hi]

/-- Settles O33: then no sprite moves and no class is stamped. -/
theorem tickWithNothingEligibleChangesNothing :
    Obligations.TickWithNothingEligibleChangesNothing := by
  intro s h
  have hel (c : Fin 7) : eligible defaultPeriod s s.now c = false := by
    rw [← Bool.not_eq_true, eligible_iff]
    exact h c
  rw [exec_tick_eq, tickSprites_of_none defaultConfig hel, State.stampLast_of_none s hel]

/-- The reading less the timestamp is the true time since, as long as that is below 2^`CLOCK_W`
(R177). -/
theorem elapsed_eq {s : State W} {c : Fin 7} {d : Nat} (hd : d < 2 ^ W)
    (h : s.now = s.lastOf c + BitVec.ofNat W d) : (s.now - s.lastOf c).toNat = d := by
  rw [h, add_sub_cancel_left, BitVec.toNat_ofNat, Nat.mod_eq_of_lt hd]

/-- Settles O46: a class is stamped when eligible, and the elapsed time it is judged by is the true
one. -/
theorem tickAtEveryClockWidth : Obligations.TickAtEveryClockWidth := by
  intro cfg s c d hd h
  refine ⟨_, rfl, ?_⟩
  rw [State.lastOf_stampLast, (tickSprites_only cfg _ s).lastOf]
  simp only [eligible_eq_true, elapsed_eq hd h]

/-- Settles O34: the default configuration's case of O46. -/
theorem tickToleratesOneWraparound : Obligations.TickToleratesOneWraparound := by
  intro s c d hd h
  obtain ⟨t, ht, hlast⟩ := tickAtEveryClockWidth defaultConfig s c d hd h
  exact ⟨t, (exec_eq_execIn .tick s).trans ht, by rw [hlast, defaultPeriod_toNat]⟩

/-! ### Staying inside the cube (R25 (a), R178) -/

theorem inCube_cellOf_iff (w : Word) :
    InCube (cellOf w) ↔ ∀ ax, attrValue w (Axis.attr ax) ≤ 5 :=
  ⟨fun ⟨hz, hy, hx⟩ ax => by cases ax; exacts [hx, hy, hz], fun h => ⟨h .z, h .y, h .x⟩⟩

/-- A write of an obedient value keeps a sprite inside. -/
theorem inCube_put {w : Word} {a : Attr} {v : Byte} (h : InCube (cellOf w)) (hv : InWidth a v)
    (hcoord : a ∈ [Attr.x, .y, .z] → v.toNat ≤ 5) :
    InCube (cellOf (put defaultConfig w a v)) := by
  have hw := put_written w a v
  rw [inCube_cellOf_iff] at h ⊢
  intro ax
  by_cases ha : Axis.attr ax = a
  · subst ha
    rw [written_value_of_inWidth hw hv]
    exact hcoord (by cases ax <;> decide)
  · rw [hw.other hv ha]
    exact h ax

theorem inCube_stepWord {w : Word} (h : InCube (cellOf w)) : InCube (cellOf (stepWord w)) := by
  obtain ⟨hz, hy, hx⟩ := h
  rw [stepWord_eq_placeWord, cellOf_placeWord _ (steppedX_le w) (steppedY_le w) (steppedZ_le w)]
  exact ⟨stepped_le_five hz _ _, stepped_le_five hy _ _, stepped_le_five hx _ _⟩

theorem coordsOk_of_only {i : Fin 25} {s t : State} (hs : CoordsOk s) (h : OnlySprite i s t)
    (hi : InCube (cellOf (t.sprite i))) : CoordsOk t := by
  intro j
  by_cases hj : j = i
  · exact hj ▸ hi
  · rw [h.sprite_other (Ne.symm hj)]
    exact hs j

theorem coordsOk_of_spr {s t : State} (hs : CoordsOk s) (h : t.spr = s.spr) : CoordsOk t := by
  intro j
  rw [State.sprite, h]
  exact hs j

/-- A format S command that goes on names a sprite (R110). -/
theorem exists_sprite_of_next {i : Instr} {id : Nat} {s t : State} (hi : spriteId i = some id)
    (h : exec i s = .next t) : ∃ k : Fin 25, k.val = id := by
  by_contra hnone
  have hid : ¬ id < 25 := fun hid => hnone ⟨⟨id, hid⟩, rfl⟩
  cases (exec_refused_of_spriteId hi hid s).symm.trans h

/-- A draw no wider than the field is inside its width (R82). -/
theorem inWidth_setWidth {a : Attr} {n : Nat} (h : n ≤ fieldWidth a) (d : BitVec n) :
    InWidth a (d.setWidth 8) := by
  rw [InWidth, BitVec.toNat_setWidth]
  calc d.toNat % 2 ^ 8 ≤ d.toNat := Nat.mod_le _ _
    _ < 2 ^ n := d.isLt
    _ ≤ 2 ^ fieldWidth a := Nat.pow_le_pow_right (by decide) h

/-- Every command with an obedient value, and obedient draws for RNDPOS, keeps all sprites inside. -/
theorem exec_coordsOk {i : Instr} {s t : State} (hs : CoordsOk s) (hv : valueOk i)
    (hdraws : (∃ id, i = .rndpos id) → PositionDrawsOk s.rnd) (h : exec i s = .next t) :
    CoordsOk t := by
  have hwrites := (execIn_writesOnly ((exec_eq_execIn i s).symm.trans h)).spr
  cases i with
  | get | setcell | refresh =>
    refine coordsOk_of_spr hs ?_
    by_contra hne
    simpa using hwrites hne
  | set id an v =>
    obtain ⟨k, rfl⟩ := exists_sprite_of_next rfl h
    rcases attrCode_or_unknown an with ⟨a, rfl⟩ | han
    · rw [exec_set_known] at h
      cases h
      obtain ⟨hwidth, hcoord⟩ := hv a rfl
      refine coordsOk_of_only hs (writeAttr_only _ k a v s) ?_
      rw [writeAttr_sprite]
      exact inCube_put (hs k) hwidth hcoord
    · rw [exec_set_unknown s k han] at h
      cases h
  | rndcol id =>
    obtain ⟨k, rfl⟩ := exists_sprite_of_next rfl h
    rw [exec_rndcol_ok] at h
    cases h
    refine coordsOk_of_only hs (syncWrite_only _ k _ _ s) ?_
    rw [syncWrite_sprite]
    exact inCube_put (hs k) (inWidth_setWidth (by decide) _) (by simp)
  | rndpos id =>
    obtain ⟨k, rfl⟩ := exists_sprite_of_next rfl h
    rw [exec_rndpos_eq] at h
    cases h
    obtain ⟨hx, hy, hz⟩ := hdraws ⟨_, rfl⟩
    refine coordsOk_of_only hs (placeSync_only k _ _ _ s) ?_
    rw [placeSync_sprite, cellOf_placeWord _ (draw_le_seven _) (draw_le_seven _) (draw_le_seven _)]
    exact ⟨hz, hy, hx⟩
  | rnddir id =>
    obtain ⟨k, rfl⟩ := exists_sprite_of_next rfl h
    rw [exec_rnddir_ok] at h
    cases h
    refine coordsOk_of_only hs (plainWrite_only _ k _ _ s) ?_
    rw [plainWrite_sprite]
    exact inCube_put (hs k) (inWidth_setWidth (by decide) _) (by simp)
  | move id =>
    obtain ⟨k, rfl⟩ := exists_sprite_of_next rfl h
    rw [exec_move_ok] at h
    cases h
    refine coordsOk_of_only hs (moveStep_only _ k s) ?_
    rw [moveStep_sprite]
    exact inCube_stepWord (hs k)
  | tick =>
    cases h
    intro j
    change InCube (cellOf ((tickSprites defaultConfig _ s).sprite j))
    rw [tickSprites_sprite, tickWord]
    split
    · exact inCube_stepWord (hs j)
    · exact hs j

/-- Settles O42: presenting the command samples its draws and touches no sprite; the rest is
`exec_coordsOk`. -/
theorem spritesStayInsideTheCube : Obligations.SpritesStayInsideTheCube := by
  intro s t hs hok h
  rcases step_cases s with ⟨-, he⟩ | ⟨r, rest, hin, ⟨-, he⟩ | ⟨i, hd, he⟩⟩
  · cases he.symm.trans h
    exact hs
  · cases he.symm.trans h
    exact hs
  · obtain ⟨hv, hdraws⟩ := hok r rest i hin hd
    exact exec_coordsOk (s := s.present r rest) hs hv hdraws (he.symm.trans h)

end Sys2Proof.Machine
end

section
/-! PROOFS. SETCELL twice, and REFRESH: its data bits, its events, its frame and the cycle of the
counters (42_framebuffer.md rule R140, 43_multiplexer.md rules R151 to R161). -/

namespace Sys2Proof.Machine

open Sys2Proof.Safety

variable {W : Nat}

/-! ### Two writes to one cell (R56, R140) -/

theorem Memory.writeCell_writeCell {m : Memory} (h : m.wf = true) {l r c : Nat} (hl : l ≤ 5)
    (hr : r ≤ 5) (hc : c ≤ 5) (v v' : Colour) :
    (m.writeCell l r c v).writeCell l r c v' = m.writeCell l r c v' := by
  have hwf (v : Colour) : (m.writeCell l r c v).wf = true := Memory.wf_writeCell h hl hr hc v
  refine Memory.ext_of_bufferBit (Memory.wf_writeCell (hwf v) hl hr hc v') (hwf v') fun p => ?_
  rw [bufferBit_writeCell (hwf v), bufferBit_writeCell h, bufferBit_writeCell h]
  split
  · rfl
  · split <;> rfl

theorem State.setCell_setCell {s : State W} (h : s.fb.wf = true) (l r c : Nat) (v v' : Colour) :
    (s.setCell l r c v).setCell l r c v' = s.setCell l r c v' := by
  by_cases hout : 5 < l ∨ 5 < r ∨ 5 < c
  · rw [State.setCell_dropped hout s v]
  · have hl : l ≤ 5 := by omega
    have hr : r ≤ 5 := by omega
    have hc : c ≤ 5 := by omega
    simp only [State.setCell_inCube hl hr hc, State.setFb_fb,
      Memory.writeCell_writeCell h hl hr hc]
    rfl

/-- Settles O21: the second write covers the first. -/
theorem lastSetcellWins : Obligations.LastSetcellWins := by
  intro s l r c v v' hfb
  refine ⟨_, s.setCell l r c v', exec_setcell_ok l r c v s, ?_, exec_setcell_ok l r c v' s,
    fun hl hr hc => ?_⟩
  · rw [exec_setcell_ok, State.setCell_setCell hfb]
  · rw [cellCode_eq, State.cell_setCell hfb hl hr hc, if_pos rfl]

/-! ### Events and lines at any configuration (R158, R161) -/

/-- Settles O23: REFRESH appends `refreshEvents`, whose length is known. -/
theorem refreshEventCount : Obligations.RefreshEventCount :=
  fun cfg s h => ⟨_, _, execIn_refresh_ok h, rfl, length_refreshEvents cfg s.fb _ _⟩

/-- Patterns that rule R152 lets be told apart have at least one bit. -/
theorem nPulse_pos_of_patOk {cfg : Config} (h : PatOk cfg) : 0 < cfg.nPulse := by
  refine Nat.pos_of_ne_zero fun h0 => h.redLights ?_
  ext k hk
  omega

theorem layerBits_ne_nil_of_pos {cfg : Config} (h : 0 < cfg.nPulse) (fb : Memory) (layer : Nat)
    (phase : BitVec 1) : layerBits cfg fb layer phase ≠ [] := by
  refine List.ne_nil_of_length_pos ?_
  rw [length_layerBits]
  omega

/-- A list that is not empty has its own last element, whatever the default. -/
theorem getLast?_getD_eq {α : Type} {l : List α} (h : l ≠ []) (x y : α) :
    l.getLast?.getD x = l.getLast?.getD y := by
  rw [List.getLast?_eq_some_getLast h]
  rfl

/-- Settles O24: every field REFRESH writes is an expression in the frame buffer and the counters, as
soon as there is a last data bit. -/
theorem refreshDependsOnTheBufferAlone : Obligations.RefreshDependsOnTheBufferAlone := by
  intro cfg s s' hpat hlayer hfb hl hp
  have hbits := layerBits_ne_nil_of_pos (nPulse_pos_of_patOk hpat) s.fb s.layerCounter.toNat s.mplexCounter
  have h := execIn_refresh_ok (cfg := cfg) hlayer
  have h' := execIn_refresh_ok (cfg := cfg) (hl ▸ hlayer : s'.layerCounter.toNat ≤ 5)
  rw [if_neg hbits] at h
  rw [← hfb, ← hl, ← hp, if_neg hbits] at h'
  exact ⟨_, _, _, h, h', rfl, rfl, getLast?_getD_eq hbits _ _, rfl, rfl, rfl, rfl, rfl⟩

/-! ### The data bits (R151 to R153) -/

/-- Entry `n * j + b` of lists of `n` entries joined is entry `b` of the `j`th. -/
theorem getElem?_flatMap_const {α β : Type} {f : α → List β} {n : Nat}
    (h : ∀ x, (f x).length = n) (l : List α) (j : Nat) {b : Nat} (hb : b < n) :
    (l.flatMap f)[n * j + b]? = l[j]?.bind fun x => (f x)[b]? := by
  induction l generalizing j with
  | nil => simp
  | cons x l ih =>
    rw [List.flatMap_cons]
    cases j with
    | zero => simp [List.getElem?_append_left (by rw [h]; exact hb : b < (f x).length)]
    | succ j =>
      rw [List.getElem?_append_right (by rw [h, Nat.mul_succ]; omega), h,
        show n * (j + 1) + b - n = n * j + b by rw [Nat.mul_succ]; omega, ih]
      rfl

/-- The bits of cell `k` stand at place `35 - k`, since cell 35 is shifted first (R151). -/
theorem layerBits_getD (fb : Memory) (layer : Nat) (phase : BitVec 1) {k b : Nat} (hk : k < 36)
    (hb : b < 2) :
    (layerBits defaultConfig fb layer phase).getD (2 * (35 - k) + b) false =
      (defaultPat phase (fb.cell layer (k / 6) (k % 6)))[b] := by
  have hcell : (List.range 36).reverse[35 - k]? = some k := by
    rw [List.getElem?_reverse (by rw [List.length_range]; omega), List.length_range,
      List.getElem?_range (by omega)]
    exact congrArg some (by omega)
  have hbits := getElem?_flatMap_const (l := (List.range 36).reverse) (j := 35 - k)
    (f := fun k => (defaultPat phase (fb.cell layer (k / 6) (k % 6))).toList)
    (fun _ => Vector.length_toList) hb
  rw [hcell] at hbits
  rw [List.getD_eq_getElem?_getD, layerBits, hbits]
  simp [hb]

/-- The default patterns (R153). -/
theorem defaultPat_bits (phase : BitVec 1) (code : Colour) :
    (defaultPat phase code)[0] = decide (phase = 0 ∧ (code = 2 ∨ code = 3)) ∧
      (defaultPat phase code)[1] =
        if phase = 0 then decide (code = 3) else decide (code = 1) := by
  revert phase code
  decide

/-- The events of a step as rule R158 lists them. -/
theorem refreshEvents_eq (cfg : Config) (fb : Memory) (layer : Nat) (phase : BitVec 1) :
    refreshEvents cfg fb layer phase = [WireEvent.layerEn 0] ++
      (layerBits cfg fb layer phase).flatMap shiftBit ++
      [WireEvent.latch true, WireEvent.latch false, WireEvent.layerEn (1#6 <<< layer)] :=
  List.append_assoc _ _ _

/-- Settles O22: the bits are `layerBits`, and `execIn_refresh_ok` writes the state out. -/
theorem refreshShiftsTheLayer : Obligations.RefreshShiftsTheLayer := by
  intro s h
  dsimp only
  set bits := layerBits defaultConfig s.fb s.layerCounter.toNat s.mplexCounter with hbits
  have hlen : bits.length = 72 := length_layerBits defaultConfig _ _ _
  have hne : bits ≠ [] := layerBits_ne_nil _ _ _
  refine ⟨bits, hlen, fun k hk => ?_, ?_⟩
  · obtain ⟨hfirst, hsecond⟩ := defaultPat_bits s.mplexCounter
      (s.fb.cell s.layerCounter.toNat (k / 6) (k % 6))
    rw [cellCode_eq, ← hfirst, ← hsecond]
    exact ⟨layerBits_getD s.fb _ _ hk (b := 0) (by decide),
      layerBits_getD s.fb _ _ hk (b := 1) (by decide)⟩
  · have hlast : bits.getLast?.getD s.data = bits.getD 71 false := by
      rw [getLast?_getD_eq hne s.data false, List.getLast?_eq_getElem?, hlen,
        List.getD_eq_getElem?_getD]
    rw [exec_eq_execIn, execIn_refresh_ok h, refreshEvents_eq, ← hbits, hlast, if_neg hne]
    rfl

/-! ### The cycle (R157) -/

/-- `t` is `s` with the counters `n` places on in the cycle of twelve, and nothing REFRESH does not
write changed. -/
structure Advanced (n : Nat) (s t : State) : Prop where
  layer : t.layerCounter.toNat = (2 * s.layerCounter.toNat + s.mplexCounter.toNat + n) / 2 % 6
  phase : t.mplexCounter.toNat = (s.mplexCounter.toNat + n) % 2
  spr : t.spr = s.spr
  fb : t.fb = s.fb
  last : t.last = s.last
  res : t.res = s.res

theorem Advanced.refl {s : State} (h : s.layerCounter.toNat ≤ 5) : Advanced 0 s s where
  layer := by have := s.mplexCounter.isLt; omega
  phase := by have := s.mplexCounter.isLt; omega
  spr := rfl
  fb := rfl
  last := rfl
  res := rfl

theorem Advanced.layer_le {n : Nat} {s t : State} (h : Advanced n s t) :
    t.layerCounter.toNat ≤ 5 := by
  rw [h.layer]
  omega

theorem Advanced.trans {n m : Nat} {s t u : State} (h : Advanced n s t) (h' : Advanced m t u) :
    Advanced (n + m) s u where
  layer := by rw [h'.layer, h.layer, h.phase]; omega
  phase := by rw [h'.phase, h.phase]; omega
  spr := h'.spr.trans h.spr
  fb := h'.fb.trans h.fb
  last := h'.last.trans h.last
  res := h'.res.trans h.res

/-- Presenting a command is no part of the advance. -/
theorem Advanced.of_present {n : Nat} {s t : State} {r : Request} {rest : List Request}
    (h : Advanced n (s.present r rest) t) : Advanced n s t :=
  ⟨h.layer, h.phase, h.spr, h.fb, h.last, h.res⟩

/-- One REFRESH advances the counters by one place. -/
theorem exec_refresh_advanced {s : State} (h : s.layerCounter.toNat ≤ 5) :
    ∃ t, exec .refresh s = .next t ∧ t.inbox = s.inbox ∧ Advanced 1 s t := by
  obtain ⟨hlayer, hphase⟩ := next_toNat h s.mplexCounter
  exact ⟨_, (exec_eq_execIn .refresh s).trans (execIn_refresh_ok h), rfl,
    ⟨hlayer, hphase, rfl, rfl, rfl, rfl⟩⟩

theorem step_refresh_advanced {s : State} (h : s.layerCounter.toNat ≤ 5) {r : Request}
    {rest : List Request} (hin : s.inbox = r :: rest) (hr : r.cmd = 0x80000000) :
    ∃ t, step s = .next t ∧ t.inbox = rest ∧ Advanced 1 s t := by
  have hd : decode r.cmd = .command .refresh := by
    rw [hr]
    decide
  obtain ⟨t, ht, hrest, hadv⟩ := exec_refresh_advanced (s := s.present r rest) h
  exact ⟨t, (step_command hin hd).trans ht, hrest, hadv.of_present⟩

/-- A run of `n` waiting REFRESH commands advances the counters by `n` places. -/
theorem run_refresh_advanced (n : Nat) {s : State} (h : s.layerCounter.toNat ≤ 5)
    (hcmd : ∀ r ∈ s.inbox, r.cmd = 0x80000000) (hn : n ≤ s.inbox.length) :
    ∃ t, run n s = .next t ∧ Advanced n s t := by
  induction n generalizing s with
  | zero => exact ⟨s, rfl, Advanced.refl h⟩
  | succ n ih =>
    cases hin : s.inbox with
    | nil => simp [hin] at hn
    | cons r rest =>
      rw [hin] at hcmd hn
      obtain ⟨t, hst, hrest, hadv⟩ := step_refresh_advanced h hin (hcmd r List.mem_cons_self)
      obtain ⟨u, hrun, hadv'⟩ := ih hadv.layer_le
        (by rw [hrest]; exact fun q hq => hcmd q (List.mem_cons_of_mem r hq))
        (by rw [hrest]; simpa using hn)
      exact ⟨u, (run_succ_next hst).trans hrun, Nat.add_comm n 1 ▸ hadv.trans hadv'⟩

/-- Settles O25: the waiting commands of a run of REFRESHes advance the pair one place each. -/
theorem refreshesCycleThroughTheCube : Obligations.RefreshesCycleThroughTheCube := by
  intro n s h hcmd hn
  obtain ⟨t, hrun, hlayer, hphase, hspr, hfb, hlast, hres⟩ := run_refresh_advanced n h hcmd hn
  exact ⟨t, hrun, hlayer, hphase, hspr, hfb, hlast, hres⟩

/-- `n` REFRESH commands in a row advance the counters by `n` places. -/
theorem execAll_refresh_advanced (n : Nat) {s : State} (h : s.layerCounter.toNat ≤ 5) :
    ∃ t, execAll (List.replicate n .refresh) s = .next t ∧ Advanced n s t := by
  induction n generalizing s with
  | zero => exact ⟨s, rfl, Advanced.refl h⟩
  | succ n ih =>
    obtain ⟨t, ht, -, hadv⟩ := exec_refresh_advanced h
    obtain ⟨u, hall, hadv'⟩ := ih hadv.layer_le
    rw [List.replicate_succ, execAll_cons ht]
    exact ⟨u, hall, Nat.add_comm n 1 ▸ hadv.trans hadv'⟩

/-- Settles O26: twelve places on the cycle of twelve lead back. -/
theorem frameReturnsToItsStart : Obligations.FrameReturnsToItsStart := by
  intro s h
  obtain ⟨t, hall, hlayer, hphase, hspr, hfb, hlast, hres⟩ := execAll_refresh_advanced 12 h
  have hp := s.mplexCounter.isLt
  refine ⟨t, hall, ?_, ?_, hspr, hfb, hlast, hres⟩
  · exact BitVec.eq_of_toNat_eq (by omega)
  · exact BitVec.eq_of_toNat_eq (by omega)

end Sys2Proof.Machine
end
